-- ==== Sys2Proof/Word.lean ====
section
/-! DEFINITION. Word.lean: the widths of the Modbus Frame Codec (rule R9): a byte is 8 bits, every register
but STATUS is 16 bits, a command word is 64 bits. -/

namespace Sys2Proof

/-- A byte: 8 bits, unsigned 0 to 255 (rule R9). -/
abbrev Byte := BitVec 8

/-- A 16-bit register or halfword operand (rule R9). -/
abbrev Word := BitVec 16

/-- A 64-bit command word (rule R46). -/
abbrev CommandWord := BitVec 64

end Sys2Proof
end

