-- ==== Sys2Proof/Syntax.lean ====
section
/-! DEFINITION. Syntax.lean: the rows of spec/opcode_table.json as one inductive, and the closed name sets the
commands' operands and results are read with. -/

namespace Sys2Proof

/-- One constructor per row of spec/opcode_table.json.

The first nineteen are the commands of rule R47 (format CMD64); an operand stands as the field of the command
word it comes from (rule R46): A, B and C are bytes, D and E halfwords.

The last nine are the Modbus function-code rows of rule R56 (format MODBUS_FC8): 8-bit values that "the block
decodes in byte 1 of an RTU frame, in byte 0 of a PDU and in the `fc` operand". They are no command words; log
entry 1 says what running one means. -/
inductive Instr where
  /-- NOP (R101). -/
  | nop
  /-- CRC_INIT (R68). -/
  | crcInit
  /-- CRC_BYTE byte=A (R69). -/
  | crcByte (byte : Byte)
  /-- CRC_BLOCK (R70). -/
  | crcBlock
  /-- CRC_LOAD value=D (R71). -/
  | crcLoad (value : Word)
  /-- CRC16 (R72). -/
  | crc16
  /-- RTU_ENCODE slave=A (R76). -/
  | rtuEncode (slave : Byte)
  /-- RTU_DECODE (R77). -/
  | rtuDecode
  /-- RTU_DELIMIT fc=B (R78). -/
  | rtuDelimit (fc : Byte)
  /-- WRITE_NORM (R97). -/
  | writeNorm
  /-- WR_REG_FRAME slave=A, addr=D, value=E (R98). -/
  | wrRegFrame (slave : Byte) (addr : Word) (value : Word)
  /-- MBAP_PARSE (R88). -/
  | mbapParse
  /-- MBAP_BUILD unit=A, tid=D (R89). -/
  | mbapBuild (unit : Byte) (tid : Word)
  /-- MBAP_EXCEPTION unit=A, fc=B, kind=C, tid=D, code=E (R90). The last operand is the whole halfword E;
  E[15:8] is reserved-zero (R47, R50), which `Instr.wellFormed` checks. -/
  | mbapException (unit : Byte) (fc : Byte) (kind : Byte) (tid : Word) (code : Word)
  /-- RTU_FROM_MBAP (R91). -/
  | rtuFromMbap
  /-- MBAP_FROM_RTU unit=A, fc=B, tid=D (R92). -/
  | mbapFromRtu (unit : Byte) (fc : Byte) (tid : Word)
  /-- SET_CFG idx=A, value=D (R102). -/
  | setCfg (idx : Byte) (value : Word)
  /-- GET_CFG idx=A (R103). -/
  | getCfg (idx : Byte)
  /-- SOFT_RESET (R104). -/
  | softReset
  /-- Function code 0x01, Read Coils, class READ_BC (R56). -/
  | fcReadCoils
  /-- Function code 0x02, Read Discrete Inputs, class READ_BC (R56). -/
  | fcReadDiscreteInputs
  /-- Function code 0x03, Read Holding Registers, class READ_BC (R56). -/
  | fcReadHoldingRegisters
  /-- Function code 0x04, Read Input Registers, class READ_BC (R56). -/
  | fcReadInputRegisters
  /-- Function code 0x05, Write Single Coil, class FIXED8 (R56). -/
  | fcWriteSingleCoil
  /-- Function code 0x06, Write Single Register, class FIXED8 (R56). -/
  | fcWriteSingleRegister
  /-- Function code 0x0F, Write Multiple Coils, class FIXED8 (R56). -/
  | fcWriteMultipleCoils
  /-- Function code 0x10, Write Multiple Registers, class FIXED8 (R56). -/
  | fcWriteMultipleRegisters
  /-- A function code with bit 7 set: the exception form of code `v and 0x7F` (R56). The operand is the whole
  byte; `Instr.wellFormed` checks its bit 7. -/
  | fcException (value : Byte)
  deriving DecidableEq, Repr

/-- The nineteen opcodes of rule R47. -/
inductive Opcode where
  | nop | crcInit | crcByte | crcBlock | crcLoad | crc16
  | rtuEncode | rtuDecode | rtuDelimit | writeNorm | wrRegFrame
  | mbapParse | mbapBuild | mbapException | rtuFromMbap | mbapFromRtu
  | setCfg | getCfg | softReset
  deriving DecidableEq, Repr

/-- Why a word is no instruction (rules R49, R51; the transport's case is R38's). -/
inductive DecodeError where
  /-- w[7:0] is not an OP of rule R47 (R51): the block completes BAD_COMMAND. -/
  | reservedOpcode
  /-- A reserved-zero field is not zero (R47, R51): the block completes BAD_COMMAND. -/
  | reservedField
  /-- Fewer than the eight bytes of a serialised command word (R38): no word was delivered. -/
  | tooFewBytes
  /-- A byte with bit 7 clear that rule R56 gives no row: a function code of class OTHER. -/
  | unassignedFunctionCode
  deriving DecidableEq, Repr

/-- An instruction in the form its table row gives it: a 64-bit command word (format CMD64), or an 8-bit
function code (format MODBUS_FC8). -/
inductive Encoded where
  | command (w : CommandWord)
  | functionCode (v : Byte)
  deriving DecidableEq, Repr

/-- The response class of a request's function code (rule R73). -/
inductive ResponseClass where
  /-- The response declares its byte count: 3 + byte_count + 2 bytes. -/
  | readBc
  /-- The response is a frame of exactly 8 bytes. -/
  | fixed8
  /-- The length is not to be had from the bytes. -/
  | other
  deriving DecidableEq, Repr

/-- The failure kinds of MBAP_EXCEPTION's operand C (rule R84). -/
inductive FailureKind where
  | timeout | crcMismatch | busBusy | modbusException | malformedFrame | transportError
  deriving DecidableEq, Repr

/-- The configuration registers, by the index in operand A of SET_CFG and GET_CFG (rule R100). -/
inductive ConfigReg where
  | ctrl | mbapLenMax | bufCap
  deriving DecidableEq, Repr

/-- An operand's value in the assembler syntax (rule R52): a number, or a name such as TIMEOUT or CTRL. -/
inductive AsmValue where
  | number (n : Nat)
  | name (s : String)
  deriving DecidableEq, Repr

end Sys2Proof
end

