-- ==== Sys2Proof/WellFormed.lean ====
section
/-! DEFINITION. WellFormed.lean: which terms of `Instr` stand for a word of the table. Every operand has the
width of its field, so only two operands can be ill-formed: those whose field holds fixed bits. -/

namespace Sys2Proof

/-- `i` has an encoding: MBAP_EXCEPTION's E[15:8] is reserved-zero (rules R47, R50), and an exception-form
function code has bit 7 set (rule R56). -/
def Instr.wellFormed : Instr → Bool
  | .mbapException _ _ _ _ code => code.extractLsb' 8 8 == 0#8
  | .fcException value => value.getLsbD 7
  | .nop | .crcInit | .crcByte _ | .crcBlock | .crcLoad _ | .crc16 => true
  | .rtuEncode _ | .rtuDecode | .rtuDelimit _ | .writeNorm | .wrRegFrame _ _ _ => true
  | .mbapParse | .mbapBuild _ _ | .rtuFromMbap | .mbapFromRtu _ _ _ => true
  | .setCfg _ _ | .getCfg _ | .softReset => true
  | .fcReadCoils | .fcReadDiscreteInputs | .fcReadHoldingRegisters | .fcReadInputRegisters => true
  | .fcWriteSingleCoil | .fcWriteSingleRegister | .fcWriteMultipleCoils | .fcWriteMultipleRegisters => true

end Sys2Proof
end

