-- ==== Sys2Proof/Decode.lean ====
section
/-! DEFINITION. Decode.lean: from words to instructions and back (spec/30_encoding.md). -/

namespace Sys2Proof

/-! ## The command word (rule R46) -/

/-- OP = w[7:0]. -/
def fieldOp (w : CommandWord) : Byte := w.extractLsb' 0 8
/-- A = w[15:8]. -/
def fieldA (w : CommandWord) : Byte := w.extractLsb' 8 8
/-- B = w[23:16]. -/
def fieldB (w : CommandWord) : Byte := w.extractLsb' 16 8
/-- C = w[31:24]. -/
def fieldC (w : CommandWord) : Byte := w.extractLsb' 24 8
/-- D = w[47:32]. -/
def fieldD (w : CommandWord) : Word := w.extractLsb' 32 16
/-- E = w[63:48]. -/
def fieldE (w : CommandWord) : Word := w.extractLsb' 48 16

/-- The command word with the six fields of rule R46. -/
def commandWord (op a b c : Byte) (d e : Word) : CommandWord := e ++ d ++ c ++ b ++ a ++ op

/-! ## The opcode map (rules R47, R48) -/

/-- The OP column of rule R47. -/
def opcodeByte : Opcode → Byte
  | .nop => 0x00#8
  | .crcInit => 0x01#8
  | .crcByte => 0x02#8
  | .crcBlock => 0x03#8
  | .crcLoad => 0x04#8
  | .crc16 => 0x05#8
  | .rtuEncode => 0x10#8
  | .rtuDecode => 0x11#8
  | .rtuDelimit => 0x12#8
  | .writeNorm => 0x13#8
  | .wrRegFrame => 0x14#8
  | .mbapParse => 0x20#8
  | .mbapBuild => 0x21#8
  | .mbapException => 0x22#8
  | .rtuFromMbap => 0x23#8
  | .mbapFromRtu => 0x24#8
  | .setCfg => 0x30#8
  | .getCfg => 0x31#8
  | .softReset => 0x7F#8

/-- The opcodes in the order of rule R47's table. -/
def opcodes : List Opcode :=
  [.nop, .crcInit, .crcByte, .crcBlock, .crcLoad, .crc16, .rtuEncode, .rtuDecode, .rtuDelimit, .writeNorm,
    .wrRegFrame, .mbapParse, .mbapBuild, .mbapException, .rtuFromMbap, .mbapFromRtu, .setCfg, .getCfg, .softReset]

/-- The opcode that a byte is, if rule R47's table has it; every other byte is reserved (R51). -/
def opcodeOf (op : Byte) : Option Opcode := opcodes.find? (fun o => opcodeByte o == op)

/-- The masks of rule R48: a 1 in every bit of OP and of every reserved-zero field. -/
def opcodeMask : Opcode → CommandWord
  | .nop | .crcInit | .crcBlock | .crc16 => 0xFFFFFFFFFFFFFFFF#64
  | .rtuDecode | .writeNorm | .mbapParse | .rtuFromMbap | .softReset => 0xFFFFFFFFFFFFFFFF#64
  | .crcByte | .rtuEncode | .getCfg => 0xFFFFFFFFFFFF00FF#64
  | .crcLoad => 0xFFFF0000FFFFFFFF#64
  | .rtuDelimit => 0xFFFFFFFFFF00FFFF#64
  | .wrRegFrame => 0x00000000FFFF00FF#64
  | .mbapBuild | .setCfg => 0xFFFF0000FFFF00FF#64
  | .mbapException => 0xFF000000000000FF#64
  | .mbapFromRtu => 0xFFFF0000FF0000FF#64

/-- The match of rule R48: OP, with zeros elsewhere. -/
def opcodeMatch (o : Opcode) : CommandWord := (opcodeByte o).setWidth 64

/-! ## Decoding (rules R49, R50) -/

/-- The command an opcode makes of the operand fields, "used as they stand" (R50). -/
def instrOf (o : Opcode) (a b c : Byte) (d e : Word) : Instr :=
  match o with
  | .nop => .nop
  | .crcInit => .crcInit
  | .crcByte => .crcByte a
  | .crcBlock => .crcBlock
  | .crcLoad => .crcLoad d
  | .crc16 => .crc16
  | .rtuEncode => .rtuEncode a
  | .rtuDecode => .rtuDecode
  | .rtuDelimit => .rtuDelimit b
  | .writeNorm => .writeNorm
  | .wrRegFrame => .wrRegFrame a d e
  | .mbapParse => .mbapParse
  | .mbapBuild => .mbapBuild a d
  | .mbapException => .mbapException a b c d e
  | .rtuFromMbap => .rtuFromMbap
  | .mbapFromRtu => .mbapFromRtu a b d
  | .setCfg => .setCfg a d
  | .getCfg => .getCfg a
  | .softReset => .softReset

/-- `decode(w)` of rule R49, up to the execution: total on 64-bit words. -/
def decode (w : CommandWord) : Except DecodeError Instr :=
  match opcodeOf (fieldOp w) with
  | none => .error .reservedOpcode
  | some o =>
    if w &&& opcodeMask o = opcodeMatch o then
      .ok (instrOf o (fieldA w) (fieldB w) (fieldC w) (fieldD w) (fieldE w))
    else .error .reservedField

/-- The function-code rows of rule R56: what a byte is where the block decodes a function code. -/
def decodeFunctionCode (v : Byte) : Except DecodeError Instr :=
  if v.getLsbD 7 then .ok (.fcException v)
  else if v = 0x01#8 then .ok .fcReadCoils
  else if v = 0x02#8 then .ok .fcReadDiscreteInputs
  else if v = 0x03#8 then .ok .fcReadHoldingRegisters
  else if v = 0x04#8 then .ok .fcReadInputRegisters
  else if v = 0x05#8 then .ok .fcWriteSingleCoil
  else if v = 0x06#8 then .ok .fcWriteSingleRegister
  else if v = 0x0F#8 then .ok .fcWriteMultipleCoils
  else if v = 0x10#8 then .ok .fcWriteMultipleRegisters
  else .error .unassignedFunctionCode

/-- Decoding in either format of the opcode table. -/
def decodeEncoded : Encoded → Except DecodeError Instr
  | .command w => decode w
  | .functionCode v => decodeFunctionCode v

/-! ## A command word on a byte transport (rule R38) -/

/-- The eight bytes of a command word, "least-significant byte first" (R38, 92 D28). -/
def commandBytes (w : CommandWord) : List Byte :=
  [w.extractLsb' 0 8, w.extractLsb' 8 8, w.extractLsb' 16 8, w.extractLsb' 24 8,
    w.extractLsb' 32 8, w.extractLsb' 40 8, w.extractLsb' 48 8, w.extractLsb' 56 8]

/-- The first command of a byte stream, and the bytes after it. -/
def decodeBytes : List Byte → Except DecodeError (Instr × List Byte)
  | b0 :: b1 :: b2 :: b3 :: b4 :: b5 :: b6 :: b7 :: rest =>
    match decode (b7 ++ b6 ++ b5 ++ b4 ++ b3 ++ b2 ++ b1 ++ b0) with
    | .ok i => .ok (i, rest)
    | .error r => .error r
  | _ => .error .tooFewBytes

/-! ## Encoding -/

/-- The encoding of an instruction, from rule R47's placement of its operands (reserved-zero fields 0) and, for a
function-code row, rule R56's value. -/
def encode : Instr → Encoded
  | .nop => .command (commandWord 0x00#8 0#8 0#8 0#8 0#16 0#16)
  | .crcInit => .command (commandWord 0x01#8 0#8 0#8 0#8 0#16 0#16)
  | .crcByte byte => .command (commandWord 0x02#8 byte 0#8 0#8 0#16 0#16)
  | .crcBlock => .command (commandWord 0x03#8 0#8 0#8 0#8 0#16 0#16)
  | .crcLoad value => .command (commandWord 0x04#8 0#8 0#8 0#8 value 0#16)
  | .crc16 => .command (commandWord 0x05#8 0#8 0#8 0#8 0#16 0#16)
  | .rtuEncode slave => .command (commandWord 0x10#8 slave 0#8 0#8 0#16 0#16)
  | .rtuDecode => .command (commandWord 0x11#8 0#8 0#8 0#8 0#16 0#16)
  | .rtuDelimit fc => .command (commandWord 0x12#8 0#8 fc 0#8 0#16 0#16)
  | .writeNorm => .command (commandWord 0x13#8 0#8 0#8 0#8 0#16 0#16)
  | .wrRegFrame slave addr value => .command (commandWord 0x14#8 slave 0#8 0#8 addr value)
  | .mbapParse => .command (commandWord 0x20#8 0#8 0#8 0#8 0#16 0#16)
  | .mbapBuild unit tid => .command (commandWord 0x21#8 unit 0#8 0#8 tid 0#16)
  | .mbapException unit fc kind tid code => .command (commandWord 0x22#8 unit fc kind tid code)
  | .rtuFromMbap => .command (commandWord 0x23#8 0#8 0#8 0#8 0#16 0#16)
  | .mbapFromRtu unit fc tid => .command (commandWord 0x24#8 unit fc 0#8 tid 0#16)
  | .setCfg idx value => .command (commandWord 0x30#8 idx 0#8 0#8 value 0#16)
  | .getCfg idx => .command (commandWord 0x31#8 idx 0#8 0#8 0#16 0#16)
  | .softReset => .command (commandWord 0x7F#8 0#8 0#8 0#8 0#16 0#16)
  | .fcReadCoils => .functionCode 0x01#8
  | .fcReadDiscreteInputs => .functionCode 0x02#8
  | .fcReadHoldingRegisters => .functionCode 0x03#8
  | .fcReadInputRegisters => .functionCode 0x04#8
  | .fcWriteSingleCoil => .functionCode 0x05#8
  | .fcWriteSingleRegister => .functionCode 0x06#8
  | .fcWriteMultipleCoils => .functionCode 0x0F#8
  | .fcWriteMultipleRegisters => .functionCode 0x10#8
  | .fcException value => .functionCode value

/-- What the decoder reads from a row of the opcode table whose bits are `w`: a row of 8 bits is a function code
(format MODBUS_FC8), every other row a command word (format CMD64). -/
def decodeTableWord (nbits w : Nat) : Option Instr :=
  if nbits = 8 then (decodeFunctionCode (BitVec.ofNat 8 w)).toOption
  else (decode (BitVec.ofNat 64 w)).toOption

end Sys2Proof
end

