-- ==== Sys2Proof/Config.lean ====
section
/-! DEFINITION. Config.lean: what the spec leaves free. The capacity of the buffers (BUF_CAP, rule R7) is not
here: it is the constant register CFG.BUF_CAP of State, so that every statement is about every capacity. -/

namespace Sys2Proof

/-- The byte a host read of `OBUF[i]` with `OLEN ≤ i < BUF_CAP` returns: "a free value under no law" (rule
R32; 93 U1, "a fresh draw on every read"). It has no body; the `n`-th such read returns `freeByte n`
(`n` is the model's counter `State.draws`). Log entry 3. -/
opaque Config.freeByte : Nat → Byte

/-- `MFC_BASE`, where the two buffers and the host port sit in a containing system: OPEN in the spec (rule R41,
93 U7), which says that no rule depends on it; nothing in the model reads it. Log entry 4. -/
opaque Config.mfcBase : Nat

/-- The default of the parameter BUF_CAP (rule R7, 92 D8), which `State.reset` takes. Log entry 2. -/
def Config.defaultBufCap : Word := 260#16

end Sys2Proof
end

