-- ==== Sys2Proof/Machine/State.lean ====
section
/-! DEFINITION. Machine/State.lean: the state of the block (rule R17), the host port's actions (rule R31), the
completion codes (rule R105) and the reasons a step stops (rule R114). -/

namespace Sys2Proof.Machine

/-- The completion codes of rule R105. "A model's status type has exactly the eleven codes" (93 U12); the 8-bit
value of each is `statusCode` (Machine/Flags.lean). Log entry 11. -/
inductive Status where
  | ok | needMore | lengthUnknown | crcMismatch | tooShort | exceptionFrame | malformedFrame | noResponse
  | overflow | badArg | badCommand
  deriving DecidableEq, Repr

/-- The reasons a step faults. -/
inductive Fault where
  /-- UNWRITTEN_INPUT (rules R33, R114): raised by a command that reads the input when a byte of `IBUF[0..ILEN)` was
  never written since power-on reset. SAFE: "the fault errs toward unprovable" (R33). The fault ends the run, so
  it is "kept for the whole run and never cleared" (R114). -/
  | unwrittenInput
  deriving DecidableEq, Repr

/-- The reasons a step is refused. -/
inductive Refusal where
  /-- An instruction without a meaning. Raised by no arm of `exec`: every row of the table has its meaning. SAFE. -/
  | notModelled (mnemonic : String)
  /-- A host action on an index `i ≥ BUF_CAP`, which "names no location. A model refuses it" (rules R31, R114).
  Raised by `HostWriteIbuf` and `HostReadObuf`. SAFE: it errs toward unprovable (R114). Log entry 10. -/
  | noSuchLocation
  /-- `HostReadReg` of a register that rule R31's table does not let the host read (the three of CFG; 93 U3). SAFE. -/
  | registerNotReadable
  deriving DecidableEq, Repr

/-- The registers of rule R17, by name. Rule R31 lets the host read all but the three of CFG. -/
inductive Register where
  | crc | status | res0 | res1 | res2 | ilen | olen | cfgCtrl | cfgMbapLenMax | cfgBufCap
  deriving DecidableEq, Repr

/-- The host port's actions, exactly those of rule R31. An index is any number: one past the buffer is refused. -/
inductive HostAction where
  /-- `HostWriteIbuf(i, b)`. -/
  | writeIbuf (i : Nat) (b : Byte)
  /-- `HostWriteIlen(v)`. -/
  | writeIlen (v : Word)
  /-- `HostReadReg(R)`. -/
  | readReg (r : Register)
  /-- `HostReadObuf(i)`. -/
  | readObuf (i : Nat)
  /-- `HostIssue(w)`. -/
  | issue (w : CommandWord)
  /-- `HostReset()`. -/
  | reset
  deriving DecidableEq, Repr

/-- What the host's most recent read returned: nothing yet, a register (STATUS zero-extended), or a byte. -/
inductive ReadData where
  | none
  | register (v : Word)
  | byte (b : Byte)
  deriving DecidableEq, Repr

/-- What a command reports: the arguments of `finish(S, r0, r1, r2, out)` (rule R13). -/
structure Completion where
  status : Status
  res0 : Word
  res1 : Word
  res2 : Word
  out : List Byte
  deriving DecidableEq, Repr

/-- A byte buffer: the bytes that have been written, by address (rule R34). An address that is not listed holds
no defined byte: unwritten in IBUF (R23), unspecified in OBUF (R115). Log entry 5. -/
abbrev Memory := List Host.Cell

/-- The canonical form: addresses strictly rising. (An unlisted address reads as no value, so every byte may be
listed.) -/
abbrev Memory.wf (m : Memory) : Prop := m.Pairwise (fun x y => x.1 < y.1)

/-- The state of the block, rule R17's list in its order, and after it three fields of the model's own: the
host's pending actions (its side of the host port, rules R16, R43), what its last read returned (R31), and how many
unspecified bytes have been drawn (R32). -/
structure State where
  /-- The CRC-16 accumulator (R18). -/
  crc : Word
  /-- The completion code of the most recent command (R19). -/
  status : Status
  /-- Result register 0 (R20). -/
  res0 : Word
  /-- Result register 1 (R20). -/
  res1 : Word
  /-- Result register 2 (R20). -/
  res2 : Word
  /-- The number of valid bytes in IBUF (R21). -/
  ilen : Word
  /-- The number of valid bytes in OBUF (R22). -/
  olen : Word
  /-- The input buffer (R23). -/
  ibuf : Memory
  /-- The output buffer (R24). -/
  obuf : Memory
  /-- CFG.CTRL, configuration index 0x00 (R25). -/
  cfgCtrl : Word
  /-- CFG.MBAP_LEN_MAX, configuration index 0x01 (R26). -/
  cfgMbapLenMax : Word
  /-- CFG.BUF_CAP, configuration index 0x02: the constant that is the parameter BUF_CAP (R27, R7). -/
  cfgBufCap : Word
  /-- The model's own: the actions the host performs next, first one first (R43's total order). Log entry 6. -/
  hostQueue : List HostAction
  /-- The model's own: what the host's most recent read returned. Log entry 6. -/
  readData : ReadData
  /-- The model's own: how many unspecified OBUF bytes the host has drawn (R32). Log entry 3. -/
  draws : Nat
  deriving DecidableEq, Repr

/-- The state after power-on of a block whose buffers hold `cap` bytes (rule R115), with nothing pending. -/
def State.powerOn (cap : Word) : State where
  crc := 0xFFFF#16
  status := .ok
  res0 := 0#16
  res1 := 0#16
  res2 := 0#16
  ilen := 0#16
  olen := 0#16
  ibuf := []
  obuf := []
  cfgCtrl := 0x0001#16
  cfgMbapLenMax := BitVec.ofNat 16 (min 254 (cap.toNat - 6))
  cfgBufCap := cap
  hostQueue := []
  readData := .none
  draws := 0

/-- The machine right after reset (rule R115), with BUF_CAP at its default 260 (rule R7; log entry 2) and the
model's own fields empty (log entries 3 and 6). -/
def State.reset : State := State.powerOn Config.defaultBufCap

end Sys2Proof.Machine
end

