-- ==== Sys2Proof/Machine/Operands.lean ====
section
/-! DEFINITION. Machine/Operands.lean: how a command's operands and the bytes of its input are read: byte order,
slices of a byte sequence, function-code classes, failure kinds, configuration indices. -/

namespace Sys2Proof.Machine

/-! ## Bytes and halfwords (rules R10, R11) -/

/-- `hi(v)` = v[15:8]. -/
def hi (v : Word) : Byte := v.extractLsb' 8 8

/-- `lo(v)` = v[7:0]. -/
def lo (v : Word) : Byte := v.extractLsb' 0 8

/-- `be16(x, y)` = `(zext_16(x) << 8) or zext_16(y)`. -/
def be16 (x y : Byte) : Word := x.setWidth 16 <<< 8 ||| y.setWidth 16

/-- `le16(x, y)` = `be16(y, x)`. -/
def le16 (x y : Byte) : Word := be16 y x

/-- `BE(v)` = `[hi(v), lo(v)]`. -/
def be (v : Word) : List Byte := [hi v, lo v]

/-- `LE(v)` = `[lo(v), hi(v)]`. -/
def le (v : Word) : List Byte := [lo v, hi v]

/-- `zext_16` of a byte. -/
def zext (b : Byte) : Word := b.setWidth 16

/-- A length or count as a result register takes it, modulo 2^16 (rule R13). -/
def word (n : Nat) : Word := BitVec.ofNat 16 n

/-- `s[i]` (rule R11). Every rule that writes `s[i]` has checked `i < len(s)`; past the end there is no byte, and the
0 here is read by no command. Log entry 14. -/
def byteAt (s : List Byte) (i : Nat) : Byte := s.getD i 0#8

/-- `s[i..j)` (rule R11). -/
def slice (s : List Byte) (i j : Nat) : List Byte := (s.take j).drop i

/-- Bit 7 of a function code: set in the exception form (rules R3, R56). -/
def isExceptionCode (fc : Byte) : Bool := fc.getLsbD 7

/-- `fc or 0x80`: the exception form of a function code (rules R3, R86). -/
def exceptionCode (fc : Byte) : Byte := fc ||| 0x80#8

/-! ## Function codes (rules R56, R73) -/

/-- `class(fc)` of rule R73: the response class of a request's function code. -/
def responseClass (fc : Byte) : ResponseClass :=
  if fc = 0x01#8 ∨ fc = 0x02#8 ∨ fc = 0x03#8 ∨ fc = 0x04#8 then .readBc
  else if fc = 0x05#8 ∨ fc = 0x06#8 ∨ fc = 0x0F#8 ∨ fc = 0x10#8 then .fixed8
  else .other

/-! ## Failure kinds (rules R84, R85) -/

/-- The kind that operand C encodes; 0x00 and 0x07 to 0xFF are invalid. -/
def failureKind (c : Byte) : Option FailureKind :=
  if c = 0x01#8 then some .timeout
  else if c = 0x02#8 then some .crcMismatch
  else if c = 0x03#8 then some .busBusy
  else if c = 0x04#8 then some .modbusException
  else if c = 0x05#8 then some .malformedFrame
  else if c = 0x06#8 then some .transportError
  else none

/-- The gateway exception code, "gateway target device failed to respond" (rules R8, R85). -/
def gatewayCode : Byte := 0x0B#8

/-- The exception code a kind calls for (rule R85), `device` being the one in E[7:0]; none where no frame is
sent. -/
def responseCode (kind : FailureKind) (device : Byte) : Option Byte :=
  match kind with
  | .timeout | .crcMismatch | .busBusy => some gatewayCode
  | .modbusException => some device
  | .malformedFrame | .transportError => none

/-! ## Configuration indices (rule R100) -/

/-- The register at a configuration index; 0x03 to 0xFF have none. -/
def configReg (idx : Byte) : Option ConfigReg :=
  if idx = 0x00#8 then some .ctrl
  else if idx = 0x01#8 then some .mbapLenMax
  else if idx = 0x02#8 then some .bufCap
  else none

end Sys2Proof.Machine
end

