-- ==== Sys2Proof/Machine/Flags.lean ====
section
/-! DEFINITION. Machine/Flags.lean: the values a command judges and reports by. The block has no condition codes
beyond STATUS (rule R29): here are STATUS's 8-bit codes (rule R105) and the CRC-16 that frames are checked by
(rules R63 to R66). -/

namespace Sys2Proof.Machine

/-- The 8-bit value of STATUS for each completion code (rule R105). -/
def statusCode : Status → Byte
  | .ok => 0x00#8
  | .needMore => 0x01#8
  | .lengthUnknown => 0x02#8
  | .crcMismatch => 0x03#8
  | .tooShort => 0x04#8
  | .exceptionFrame => 0x05#8
  | .malformedFrame => 0x06#8
  | .noResponse => 0x07#8
  | .overflow => 0x08#8
  | .badArg => 0x09#8
  | .badCommand => 0x0A#8

/-- GW's polynomial 0xA001, reflected 0x8005 (rule R8). -/
def crcPoly : Word := 0xA001#16

/-- GW's initial register 0xFFFF (rule R8). -/
def crcInitial : Word := 0xFFFF#16

/-- One turn of rule R63's loop: shift right, and xor the polynomial in if the bit shifted out is 1. -/
def crcShift (c : Word) : Word := if c.getLsbD 0 then (c >>> 1) ^^^ crcPoly else c >>> 1

/-- `n` turns of the loop. -/
def crcShifts : Nat → Word → Word
  | 0, c => c
  | n + 1, c => crcShifts n (crcShift c)

/-- `crc_step(c, b)` of rule R63. -/
def crcStep (c : Word) (b : Byte) : Word := crcShifts 8 (c ^^^ zext b)

/-- `foldl crc_step c s`: a running CRC taken on over a byte sequence. -/
def crcOver (c : Word) (s : List Byte) : Word := s.foldl crcStep c

/-- `CRC16(s)` of rule R64: from 0xFFFF, no final inversion. -/
def crc16Of (s : List Byte) : Word := crcOver crcInitial s

/-- The body of a frame: all but its last two bytes. -/
def frameBody (s : List Byte) : List Byte := slice s 0 (s.length - 2)

/-- The received CRC of a frame, `le16(s[n−2], s[n−1])` (rules R35, R66). -/
def frameTrailer (s : List Byte) : Word := le16 (byteAt s (s.length - 2)) (byteAt s (s.length - 1))

/-- `crc_ok(s)` (rules R14, R66). -/
def crcOk (s : List Byte) : Bool := s.length ≥ 3 && crc16Of (frameBody s) == frameTrailer s

/-- A body with its CRC trailer, `body ‖ LE(CRC16(body))` (rule R65). -/
def withCrc (body : List Byte) : List Byte := body ++ le (crc16Of body)

end Sys2Proof.Machine
end

