-- ==== Sys2Proof/Machine/Ops.lean ====
section
/-! DEFINITION. Machine/Ops.lean: the named operations over the buffers and the registers. -/

namespace Sys2Proof.Machine

/-! ## One byte and a run of bytes of a buffer (rules R34, R39) -/

/-- The byte at address `a`, if one is held there. -/
def memRead : Memory → Nat → Option Byte
  | [], _ => none
  | (k, v) :: rest, a => if k = a then some v else memRead rest a

/-- `m` with `b` at address `a`, in the canonical form. -/
def memWrite : Memory → Nat → Byte → Memory
  | [], a, b => [(a, b)]
  | (k, v) :: rest, a, b =>
    if a < k then (a, b) :: (k, v) :: rest
    else if a = k then (a, b) :: rest
    else (k, v) :: memWrite rest a b

/-- The `n` bytes from address `a` on, `MemRead(a, n)` of rule R12; none if one of them is not held. -/
def memReadRange (m : Memory) : Nat → Nat → Option (List Byte)
  | _, 0 => some []
  | a, n + 1 =>
    match memRead m a, memReadRange m (a + 1) n with
    | some b, some bs => some (b :: bs)
    | _, _ => none

/-- `MemWrite(a, n, v)` of rule R12: the bytes of `v`, first one at address `a`. -/
def memWriteRange (m : Memory) : Nat → List Byte → Memory
  | _, [] => m
  | a, b :: bs => memWriteRange (memWrite m a b) (a + 1) bs

/-! ## Completion (rule R13) -/

/-- `finish(S, r0, r1, r2, out)` of rule R13: the one way a command ends. Log entry 18. -/
def finish (c : Completion) (s : State) : State :=
  { s with
    status := c.status
    res0 := c.res0
    res1 := c.res1
    res2 := c.res2
    obuf := memWriteRange s.obuf 0 c.out
    olen := BitVec.ofNat 16 c.out.length }

/-- `raise Status(S)` of rule R13. The block has no other form of exception: nothing is saved, no handler is entered
and no mode changes (rules R108, R109, R111), so this is all that taking one is, and there is no return from it. -/
def raised (st : Status) : Completion := ⟨st, 0#16, 0#16, 0#16, []⟩

/-- `raise Status(S, r0, r1, r2)` of rule R13. -/
def raisedWith (st : Status) (r0 r1 r2 : Word) : Completion := ⟨st, r0, r1, r2, []⟩

/-- A command that ends with completion `c` and changes nothing else. -/
def complete (c : Completion) (s : State) : Host.Outcome State Fault Refusal := .next (finish c s)

/-- `HostIssue` of a word that is no command (rules R49, R51). -/
def rejectCommand (s : State) : Host.Outcome State Fault Refusal := complete (raised .badCommand) s

/-! ## The input (rules R12, R61) -/

/-- The buffers' capacity, BUF_CAP. -/
def bufCap (s : State) : Nat := s.cfgBufCap.toNat

/-- `IN`, that is `MemRead(0, ILEN)` (rule R12); none if a byte of it is unwritten (rule R23). -/
def inputBytes (s : State) : Option (List Byte) := memReadRange s.ibuf 0 s.ilen.toNat

/-- The start of every command that reads the input (rule R61): BAD_ARG if ILEN is past the buffer, before anything
else; then IN is read, which faults if a byte of it was never written (rule R33). Log entries 8 and 9. -/
def withInput (s : State) (k : List Byte → Host.Outcome State Fault Refusal) : Host.Outcome State Fault Refusal :=
  if s.ilen.toNat > bufCap s then complete (raised .badArg) s
  else
    match inputBytes s with
    | none => .fault .unwrittenInput
    | some inp => k inp

/-- What the output holds after a command: `OBUF[0..OLEN)` (rule R24). -/
def outputBytes (s : State) : Option (List Byte) := memReadRange s.obuf 0 s.olen.toNat

/-! ## Registers -/

/-- `CRC <- v` (rule R18). -/
def setCrc (v : Word) (s : State) : State := { s with crc := v }

/-- `CFG.CTRL <- v` (rule R25). -/
def setCtrl (v : Word) (s : State) : State := { s with cfgCtrl := v }

/-- `CFG.MBAP_LEN_MAX <- v` (rule R26). -/
def setMbapLenMax (v : Word) (s : State) : State := { s with cfgMbapLenMax := v }

/-- CFG.CTRL as it reads: bits 15:1 are reserved and read as 0 (rule R25). Log entry 12. -/
def readCtrl (s : State) : Word := s.cfgCtrl &&& 0x0001#16

/-- CFG.CTRL.WRNORM (rule R25). -/
def wrnorm (s : State) : Bool := s.cfgCtrl.getLsbD 0

/-- The reset value of CFG.MBAP_LEN_MAX, `min(254, BUF_CAP − 6)` (rule R26). Log entry 13. -/
def mbapLenMaxReset (cap : Word) : Word := BitVec.ofNat 16 (min 254 (cap.toNat - 6))

end Sys2Proof.Machine
end

