-- ==== Sys2Proof/Machine/Control.lean ====
section
/-! DEFINITION. Machine/Control.lean: the control commands (spec/44_control.md). -/

namespace Sys2Proof.Machine

/-- NOP (R101). -/
def execNop (s : State) : Host.Outcome State Fault Refusal := complete ⟨.ok, 0#16, 0#16, 0#16, []⟩ s

/-- SET_CFG (R102): CFG.CTRL takes a value whose bits 15:1 are 0, CFG.MBAP_LEN_MAX one in [2, BUF_CAP − 6];
CFG.BUF_CAP is read-only, and no other index has a register. -/
def execSetCfg (idx : Byte) (value : Word) (s : State) : Host.Outcome State Fault Refusal :=
  match configReg idx with
  | some .ctrl =>
    if value.extractLsb' 1 15 ≠ 0#15 then complete (raised .badArg) s
    else complete ⟨.ok, value, 0#16, 0#16, []⟩ (setCtrl value s)
  | some .mbapLenMax =>
    if value.toNat < 2 ∨ value.toNat > bufCap s - 6 then complete (raised .badArg) s
    else complete ⟨.ok, value, 0#16, 0#16, []⟩ (setMbapLenMax value s)
  | some .bufCap => complete (raised .badArg) s
  | none => complete (raised .badArg) s

/-- GET_CFG (R103). -/
def execGetCfg (idx : Byte) (s : State) : Host.Outcome State Fault Refusal :=
  match configReg idx with
  | some .ctrl => complete ⟨.ok, readCtrl s, 0#16, 0#16, []⟩ s
  | some .mbapLenMax => complete ⟨.ok, s.cfgMbapLenMax, 0#16, 0#16, []⟩ s
  | some .bufCap => complete ⟨.ok, s.cfgBufCap, 0#16, 0#16, []⟩ s
  | none => complete (raised .badArg) s

/-- SOFT_RESET (R104): CRC and the configuration return to their reset values; ILEN and IBUF stay. -/
def execSoftReset (s : State) : Host.Outcome State Fault Refusal :=
  complete ⟨.ok, 0#16, 0#16, 0#16, []⟩
    (setMbapLenMax (mbapLenMaxReset s.cfgBufCap) (setCtrl 0x0001#16 (setCrc crcInitial s)))

end Sys2Proof.Machine
end

