-- ==== Sys2Proof/Machine/Crc.lean ====
section
/-! DEFINITION. Machine/Crc.lean: the CRC commands (spec/40_crc.md), which run over the CRC register. -/

namespace Sys2Proof.Machine

/-- The end of a CRC command: `CRC <- c; finish(OK, c, 0, 0, out)`. -/
def completeCrc (c : Word) (out : List Byte) (s : State) : Host.Outcome State Fault Refusal :=
  complete ⟨.ok, c, 0#16, 0#16, out⟩ (setCrc c s)

/-- CRC_INIT (R68). -/
def execCrcInit (s : State) : Host.Outcome State Fault Refusal := completeCrc crcInitial [] s

/-- CRC_BYTE (R69). -/
def execCrcByte (byte : Byte) (s : State) : Host.Outcome State Fault Refusal :=
  completeCrc (crcStep s.crc byte) [] s

/-- CRC_BLOCK (R70). -/
def execCrcBlock (s : State) : Host.Outcome State Fault Refusal :=
  withInput s fun inp => completeCrc (crcOver s.crc inp) [] s

/-- CRC_LOAD (R71). -/
def execCrcLoad (value : Word) (s : State) : Host.Outcome State Fault Refusal := completeCrc value [] s

/-- CRC16 (R72). -/
def execCrc16 (s : State) : Host.Outcome State Fault Refusal :=
  withInput s fun inp => completeCrc (crc16Of inp) (le (crc16Of inp)) s

end Sys2Proof.Machine
end

