-- ==== Sys2Proof/Machine/Rtu.lean ====
section
/-! DEFINITION. Machine/Rtu.lean: the RTU frame encoder, validator and delimiter (spec/41_rtu.md). Each command is
a function from its input to a completion; the CRCs are computed on it and never touch the CRC register (R18). -/

namespace Sys2Proof.Machine

/-- RTU_ENCODE's checks and frame (R76), the input length itself already checked (R61). -/
def rtuEncode (cap : Nat) (slave : Byte) (inp : List Byte) : Completion :=
  if inp.length = 0 then raised .badArg
  else if inp.length + 3 > cap then raised .overflow
  else ⟨.ok, crc16Of (slave :: inp), 0#16, 0#16, withCrc (slave :: inp)⟩

/-- RTU_DECODE's checks and results (R77): too short, CRC mismatch, exception response, frame. -/
def rtuDecode (inp : List Byte) : Completion :=
  if inp.length < 4 then raised .tooShort
  else if crc16Of (frameBody inp) ≠ frameTrailer inp then
    raisedWith .crcMismatch (crc16Of (frameBody inp)) (frameTrailer inp) 0#16
  else if isExceptionCode (byteAt inp 1) then
    if inp.length < 5 then raised .tooShort
    else ⟨.exceptionFrame, zext (byteAt inp 0), zext (byteAt inp 1), zext (byteAt inp 2),
      slice inp 1 (inp.length - 2)⟩
  else ⟨.ok, zext (byteAt inp 0), zext (byteAt inp 1), 0#16, slice inp 1 (inp.length - 2)⟩

/-- RTU_DELIMIT's verdict once the response length is expected to be `e` (R78). -/
def delimitAt (cap e : Nat) (inp : List Byte) : Completion :=
  if e > cap then raisedWith .overflow (word e) 0#16 0#16
  else if inp.length ≥ e then ⟨.ok, word e, word (inp.length - e), 0#16, []⟩
  else raisedWith .needMore (word e) 0#16 0#16

/-- RTU_DELIMIT's verdict (R78) for a request of response class `cls`. An exception frame is seen first, whatever the
class: the first 5 bytes, accepted when their own CRC validates. -/
def delimit (cap : Nat) (cls : ResponseClass) (inp : List Byte) : Completion :=
  if inp.length ≥ 2 ∧ isExceptionCode (byteAt inp 1) then
    if inp.length ≥ 5 ∧ crcOk (slice inp 0 5) then ⟨.ok, 5#16, word (inp.length - 5), 1#16, []⟩
    else raisedWith .needMore 5#16 (if inp.length ≥ 5 then 1#16 else 0#16) 1#16
  else
    match cls with
    | .readBc =>
      if inp.length < 3 then raisedWith .needMore 0#16 0#16 0#16
      else delimitAt cap (3 + (byteAt inp 2).toNat + 2) inp
    | .fixed8 => delimitAt cap 8 inp
    | .other => raised .lengthUnknown

/-- The delimiter as a command: the input check of R61, then the verdict. -/
def runDelimit (cls : ResponseClass) (s : State) : Host.Outcome State Fault Refusal :=
  withInput s fun inp => complete (delimit (bufCap s) cls inp) s

/-- RTU_ENCODE (R76). -/
def execRtuEncode (slave : Byte) (s : State) : Host.Outcome State Fault Refusal :=
  withInput s fun inp => complete (rtuEncode (bufCap s) slave inp) s

/-- RTU_DECODE (R77). -/
def execRtuDecode (s : State) : Host.Outcome State Fault Refusal :=
  withInput s fun inp => complete (rtuDecode inp) s

/-- RTU_DELIMIT (R78). -/
def execRtuDelimit (fc : Byte) (s : State) : Host.Outcome State Fault Refusal := runDelimit (responseClass fc) s

end Sys2Proof.Machine
end

