-- ==== Sys2Proof/Machine/FunctionCode.lean ====
section
/-! DEFINITION. Machine/FunctionCode.lean: the Modbus function-code rows of the opcode table (rule R56). A row is no
command word: it is a value "the block decodes in byte 1 of an RTU frame, in byte 0 of a PDU and in the `fc`
operand". The one effect that the spec lets hang on the code alone is its response class ("only RTU_DELIMIT's class
depends on it", 92 D24), which RTU_DELIMIT looks up in its `fc` operand (R73, R78). Running a row is the block
decoding that value there: RTU_DELIMIT's verdict on the input, with the row's class. Log entry 1. -/

namespace Sys2Proof.Machine

/-- 0x01: READ_BC. -/
def execFcReadCoils (s : State) : Host.Outcome State Fault Refusal := runDelimit .readBc s
/-- 0x02: READ_BC. -/
def execFcReadDiscreteInputs (s : State) : Host.Outcome State Fault Refusal := runDelimit .readBc s
/-- 0x03: READ_BC. -/
def execFcReadHoldingRegisters (s : State) : Host.Outcome State Fault Refusal := runDelimit .readBc s
/-- 0x04: READ_BC. -/
def execFcReadInputRegisters (s : State) : Host.Outcome State Fault Refusal := runDelimit .readBc s
/-- 0x05: FIXED8. -/
def execFcWriteSingleCoil (s : State) : Host.Outcome State Fault Refusal := runDelimit .fixed8 s
/-- 0x06: FIXED8. -/
def execFcWriteSingleRegister (s : State) : Host.Outcome State Fault Refusal := runDelimit .fixed8 s
/-- 0x0F: FIXED8. -/
def execFcWriteMultipleCoils (s : State) : Host.Outcome State Fault Refusal := runDelimit .fixed8 s
/-- 0x10: FIXED8. -/
def execFcWriteMultipleRegisters (s : State) : Host.Outcome State Fault Refusal := runDelimit .fixed8 s
/-- 0x80 to 0xFF: as a request's function code of class OTHER ("including every fc with bit 7 set", R73). -/
def execFcException (value : Byte) (s : State) : Host.Outcome State Fault Refusal :=
  runDelimit (responseClass value) s

end Sys2Proof.Machine
end

