-- ==== Sys2Proof/Machine/Write.lean ====
section
/-! DEFINITION. Machine/Write.lean: write normalisation (spec/43_write.md). -/

namespace Sys2Proof.Machine

/-- `normalise(p)` of rule R95, `on` being CFG.CTRL.WRNORM: a 5-byte request PDU of function code 0x06 becomes a
0x10 request with quantity 1 and byte count 2; every other PDU passes unchanged (R96). -/
def normalise (on : Bool) (p : List Byte) : List Byte :=
  if on = true ∧ p.length = 5 ∧ byteAt p 0 = 0x06#8 then
    [0x10#8, byteAt p 1, byteAt p 2, 0x00#8, 0x01#8, 0x02#8, byteAt p 3, byteAt p 4]
  else p

/-- WRITE_NORM's checks and result (R97). -/
def writeNorm (cap : Nat) (on : Bool) (inp : List Byte) : Completion :=
  if inp.length = 0 then raised .badArg
  else if (normalise on inp).length > cap then raised .overflow
  else ⟨.ok, if normalise on inp ≠ inp then 1#16 else 0#16, 0#16, 0#16, normalise on inp⟩

/-- The PDU that WR_REG_FRAME puts on the wire (R98): a 0x06 request, normalised. -/
def wrRegPdu (on : Bool) (addr value : Word) : List Byte := normalise on (0x06#8 :: (be addr ++ be value))

/-- WR_REG_FRAME's frame (R98). -/
def wrRegFrame (on : Bool) (slave : Byte) (addr value : Word) : Completion :=
  ⟨.ok, crc16Of (slave :: wrRegPdu on addr value), zext (byteAt (wrRegPdu on addr value) 0), 0#16,
    withCrc (slave :: wrRegPdu on addr value)⟩

/-- WRITE_NORM (R97). -/
def execWriteNorm (s : State) : Host.Outcome State Fault Refusal :=
  withInput s fun inp => complete (writeNorm (bufCap s) (wrnorm s) inp) s

/-- WR_REG_FRAME (R98). -/
def execWrRegFrame (slave : Byte) (addr value : Word) (s : State) : Host.Outcome State Fault Refusal :=
  complete (wrRegFrame (wrnorm s) slave addr value) s

end Sys2Proof.Machine
end

