-- ==== Sys2Proof/Machine/Mbap.lean ====
section
/-! DEFINITION. Machine/Mbap.lean: the MBAP frame decoder, encoder and translator (spec/42_mbap.md). -/

namespace Sys2Proof.Machine

/-! ## Fields (rule R81) -/

/-- transaction_id. -/
def mbapTid (s : List Byte) : Word := be16 (byteAt s 0) (byteAt s 1)
/-- protocol_id. -/
def mbapPid (s : List Byte) : Word := be16 (byteAt s 2) (byteAt s 3)
/-- length. -/
def mbapLen (s : List Byte) : Nat := (be16 (byteAt s 4) (byteAt s 5)).toNat
/-- unit_id. -/
def mbapUnit (s : List Byte) : Byte := byteAt s 6
/-- pdu. -/
def mbapPdu (s : List Byte) : List Byte := slice s 7 (6 + mbapLen s)

/-! ## Parsing (rule R82) -/

/-- `mbap_parse(s)` of rule R82, `lenMax` being CFG.MBAP_LEN_MAX: the verdict, then tid, consumed, unit and PDU as
`res0`, `res1`, `res2` and `out`, in the order of its checks. -/
def mbapParse (lenMax : Nat) (s : List Byte) : Completion :=
  if s.length < 7 then raisedWith .needMore 0#16 0#16 0#16
  else if mbapLen s = 0 ∨ mbapLen s > lenMax then raisedWith .malformedFrame (mbapTid s) (word s.length) 0#16
  else if mbapLen s = 1 then raisedWith .malformedFrame (mbapTid s) 7#16 0#16
  else if s.length < 6 + mbapLen s then raisedWith .needMore (mbapTid s) (word (6 + mbapLen s)) 0#16
  else if mbapPid s ≠ 0#16 then raisedWith .malformedFrame (mbapTid s) (word (6 + mbapLen s)) 0#16
  else ⟨.ok, mbapTid s, word (6 + mbapLen s), zext (mbapUnit s), mbapPdu s⟩

/-! ## Frames (rules R86, R87) -/

/-- `mbap_frame(t, u, p)` of rule R87. -/
def mbapFrame (tid : Word) (unit : Byte) (pdu : List Byte) : List Byte :=
  be tid ++ [0x00#8, 0x00#8] ++ be (word (1 + pdu.length)) ++ [unit] ++ pdu

/-- `exc_frame(t, u, f, k)` of rule R86: 9 bytes. -/
def excFrame (tid : Word) (unit fc code : Byte) : List Byte :=
  be tid ++ [0x00#8, 0x00#8] ++ [0x00#8, 0x03#8] ++ [unit] ++ [exceptionCode fc] ++ [code]

/-! ## Commands -/

/-- MBAP_BUILD's checks and frame (R89). -/
def mbapBuild (cap : Nat) (unit : Byte) (tid : Word) (inp : List Byte) : Completion :=
  if inp.length = 0 then raised .badArg
  else if inp.length + 7 > cap then raised .overflow
  else ⟨.ok, tid, word (1 + inp.length), 0#16, mbapFrame tid unit inp⟩

/-- MBAP_EXCEPTION's result (R90): `device` is E[7:0]. -/
def mbapException (unit fc kind : Byte) (tid : Word) (device : Byte) : Completion :=
  match failureKind kind with
  | none => raised .badArg
  | some k =>
    match responseCode k device with
    | none => raisedWith .noResponse tid 0#16 0#16
    | some code => ⟨.ok, tid, zext code, 0#16, excFrame tid unit fc code⟩

/-- RTU_FROM_MBAP's checks and frame (R91). -/
def rtuFromMbap (cap lenMax : Nat) (on : Bool) (inp : List Byte) : Completion :=
  if (mbapParse lenMax inp).status ≠ .ok then
    raisedWith (mbapParse lenMax inp).status (mbapParse lenMax inp).res0 (mbapParse lenMax inp).res1 0#16
  else if (normalise on (mbapPdu inp)).length + 3 > cap then
    raisedWith .overflow (mbapTid inp) (word (6 + mbapLen inp)) 0#16
  else ⟨.ok, mbapTid inp, word (6 + mbapLen inp), zext (mbapUnit inp) ||| zext (byteAt (mbapPdu inp) 0) <<< 8,
    withCrc (mbapUnit inp :: normalise on (mbapPdu inp))⟩

/-- MBAP_FROM_RTU's checks and frame (R92), from RTU_DECODE's checks on the same input. The verdict is RTU_DECODE's;
it is OK, EXCEPTION_FRAME (the code is RTU_DECODE's RES2, IN[2]), CRC_MISMATCH or TOO_SHORT. -/
def mbapFromRtu (cap : Nat) (unit fc : Byte) (tid : Word) (inp : List Byte) : Completion :=
  if (rtuDecode inp).status = .ok then
    if (rtuDecode inp).out.length + 7 > cap then raisedWith .overflow tid 0#16 0#16
    else ⟨.ok, tid, word (1 + (rtuDecode inp).out.length), 0#16, mbapFrame tid unit (rtuDecode inp).out⟩
  else if (rtuDecode inp).status = .exceptionFrame then
    ⟨.exceptionFrame, tid, zext (byteAt inp 2), 0#16, excFrame tid unit fc (byteAt inp 2)⟩
  else ⟨(rtuDecode inp).status, tid, zext gatewayCode, 0#16, excFrame tid unit fc gatewayCode⟩

/-- MBAP_PARSE (R88). -/
def execMbapParse (s : State) : Host.Outcome State Fault Refusal :=
  withInput s fun inp => complete (mbapParse s.cfgMbapLenMax.toNat inp) s

/-- MBAP_BUILD (R89). -/
def execMbapBuild (unit : Byte) (tid : Word) (s : State) : Host.Outcome State Fault Refusal :=
  withInput s fun inp => complete (mbapBuild (bufCap s) unit tid inp) s

/-- MBAP_EXCEPTION (R90). The device exception code is E[7:0] (R50). -/
def execMbapException (unit fc kind : Byte) (tid code : Word) (s : State) : Host.Outcome State Fault Refusal :=
  complete (mbapException unit fc kind tid (lo code)) s

/-- RTU_FROM_MBAP (R91). -/
def execRtuFromMbap (s : State) : Host.Outcome State Fault Refusal :=
  withInput s fun inp => complete (rtuFromMbap (bufCap s) s.cfgMbapLenMax.toNat (wrnorm s) inp) s

/-- MBAP_FROM_RTU (R92). -/
def execMbapFromRtu (unit fc : Byte) (tid : Word) (s : State) : Host.Outcome State Fault Refusal :=
  withInput s fun inp => complete (mbapFromRtu (bufCap s) unit fc tid inp) s

end Sys2Proof.Machine
end

