-- ==== Sys2Proof/Machine/Dispatch.lean ====
section
/-! DEFINITION. Machine/Dispatch.lean: one arm per constructor of Instr. -/

namespace Sys2Proof.Machine

def exec (i : Instr) (s : State) : Host.Outcome State Fault Refusal :=
  match i with
  | .nop => Sys2Proof.Machine.execNop s
  | .crcInit => Sys2Proof.Machine.execCrcInit s
  | .crcByte byte => Sys2Proof.Machine.execCrcByte byte s
  | .crcBlock => Sys2Proof.Machine.execCrcBlock s
  | .crcLoad value => Sys2Proof.Machine.execCrcLoad value s
  | .crc16 => Sys2Proof.Machine.execCrc16 s
  | .rtuEncode slave => Sys2Proof.Machine.execRtuEncode slave s
  | .rtuDecode => Sys2Proof.Machine.execRtuDecode s
  | .rtuDelimit fc => Sys2Proof.Machine.execRtuDelimit fc s
  | .writeNorm => Sys2Proof.Machine.execWriteNorm s
  | .wrRegFrame slave addr value => Sys2Proof.Machine.execWrRegFrame slave addr value s
  | .mbapParse => Sys2Proof.Machine.execMbapParse s
  | .mbapBuild unit tid => Sys2Proof.Machine.execMbapBuild unit tid s
  | .mbapException unit fc kind tid code => Sys2Proof.Machine.execMbapException unit fc kind tid code s
  | .rtuFromMbap => Sys2Proof.Machine.execRtuFromMbap s
  | .mbapFromRtu unit fc tid => Sys2Proof.Machine.execMbapFromRtu unit fc tid s
  | .setCfg idx value => Sys2Proof.Machine.execSetCfg idx value s
  | .getCfg idx => Sys2Proof.Machine.execGetCfg idx s
  | .softReset => Sys2Proof.Machine.execSoftReset s
  -- The function-code rows (rule R56; log entry 1).
  | .fcReadCoils => Sys2Proof.Machine.execFcReadCoils s
  | .fcReadDiscreteInputs => Sys2Proof.Machine.execFcReadDiscreteInputs s
  | .fcReadHoldingRegisters => Sys2Proof.Machine.execFcReadHoldingRegisters s
  | .fcReadInputRegisters => Sys2Proof.Machine.execFcReadInputRegisters s
  | .fcWriteSingleCoil => Sys2Proof.Machine.execFcWriteSingleCoil s
  | .fcWriteSingleRegister => Sys2Proof.Machine.execFcWriteSingleRegister s
  | .fcWriteMultipleCoils => Sys2Proof.Machine.execFcWriteMultipleCoils s
  | .fcWriteMultipleRegisters => Sys2Proof.Machine.execFcWriteMultipleRegisters s
  | .fcException value => Sys2Proof.Machine.execFcException value s

end Sys2Proof.Machine
end

