-- ==== Sys2Proof/Machine/HostPort.lean ====
section
/-! DEFINITION. Machine/HostPort.lean: the host port (rule R31), and the host's pseudo-instructions over it (rules
R53, R83). -/

namespace Sys2Proof.Machine

/-! ## The six actions (rule R31) -/

/-- `HostWriteIbuf(i, b)`, with `0 ≤ i < BUF_CAP`: the byte is now written. -/
def hostWriteIbuf (i : Nat) (b : Byte) (s : State) : Host.Outcome State Fault Refusal :=
  if i < bufCap s then .next { s with ibuf := memWrite s.ibuf i b } else .refused .noSuchLocation

/-- `HostWriteIlen(v)`: any 16-bit value (R21). -/
def hostWriteIlen (v : Word) (s : State) : Host.Outcome State Fault Refusal := .next { s with ilen := v }

/-- What `HostReadReg(R)` returns, for the registers of R31; CFG is reached only through GET_CFG. -/
def hostRegister (r : Register) (s : State) : Option Word :=
  match r with
  | .crc => some s.crc
  | .status => some (zext (statusCode s.status))
  | .res0 => some s.res0
  | .res1 => some s.res1
  | .res2 => some s.res2
  | .ilen => some s.ilen
  | .olen => some s.olen
  | .cfgCtrl | .cfgMbapLenMax | .cfgBufCap => none

/-- `HostReadReg(R)`: it changes nothing (R40). -/
def hostReadReg (r : Register) (s : State) : Host.Outcome State Fault Refusal :=
  match hostRegister r s with
  | some v => .next { s with readData := .register v }
  | none => .refused .registerNotReadable

/-- The byte `OBUF[i]` that a read sees (R24, R32): defined where `i < OLEN`. -/
def obufByte (i : Nat) (s : State) : Option Byte := if i < s.olen.toNat then memRead s.obuf i else none

/-- `HostReadObuf(i)`, with `0 ≤ i < BUF_CAP`: the byte the most recent command wrote there, or at and past OLEN a
fresh draw (R32). -/
def hostReadObuf (i : Nat) (s : State) : Host.Outcome State Fault Refusal :=
  if i < bufCap s then
    match obufByte i s with
    | some b => .next { s with readData := .byte b }
    | none => .next { s with readData := .byte (Config.freeByte s.draws), draws := s.draws + 1 }
  else .refused .noSuchLocation

/-- `HostIssue(w)` (R49): decode `w` and execute it, or complete BAD_COMMAND. -/
def hostIssue (w : CommandWord) (s : State) : Host.Outcome State Fault Refusal :=
  match decode w with
  | .ok i => exec i s
  | .error _ => rejectCommand s

/-- `HostReset()` (R115): the block returns to its power-on state, BUF_CAP being a constant. What the host still means
to do, what it has read and the draws made are not the block's and stay. Log entry 16. -/
def hostReset (s : State) : Host.Outcome State Fault Refusal :=
  .next { State.powerOn s.cfgBufCap with
    hostQueue := s.hostQueue
    readData := s.readData
    draws := s.draws }

/-- One action of the host port. -/
def perform (a : HostAction) (s : State) : Host.Outcome State Fault Refusal :=
  match a with
  | .writeIbuf i b => hostWriteIbuf i b s
  | .writeIlen v => hostWriteIlen v s
  | .readReg r => hostReadReg r s
  | .readObuf i => hostReadObuf i s
  | .issue w => hostIssue w s
  | .reset => hostReset s

/-- The next action of the host, in its total order (R43). With none pending the block waits (R117). -/
def hostStep (s : State) : Host.Outcome State Fault Refusal :=
  match s.hostQueue with
  | [] => .next s
  | a :: rest => perform a { s with hostQueue := rest }

/-- The word under which a row of the opcode table reaches the block: a command word is issued as it is; a function
code stands in RTU_DELIMIT's `fc` operand (log entry 1). -/
def tableCommand (nbits w : Nat) : CommandWord :=
  if nbits = 8 then commandWord 0x12#8 0#8 (BitVec.ofNat 8 w) 0#8 0#16 0#16 else BitVec.ofNat 64 w

/-- `s` with that row's word as the host's next action. -/
def presentTableWord (s : State) (nbits w : Nat) : State :=
  { s with hostQueue := .issue (tableCommand nbits w) :: s.hostQueue }

/-! ## Pseudo-instructions (rule R53) -/

/-- `HostWriteIbuf` of the bytes of `bs`, from index `i` on. -/
def writeActions : Nat → List Byte → List HostAction
  | _, [] => []
  | i, b :: bs => .writeIbuf i b :: writeActions (i + 1) bs

/-- `LOAD s`. -/
def loadActions (bs : List Byte) : List HostAction := writeActions 0 bs ++ [.writeIlen (word bs.length)]

/-- `CONSUME k`, `old` being the host's own copy of the input (R53): the bytes after the first `k` move down. For `k` above
the old length the spec gives no expansion; leaving the empty input there (no IBUF write, ILEN 0) is the model's DESIGN
CHOICE, log entry 19. -/
def consumeActions (old : List Byte) (k : Nat) : List HostAction := loadActions (old.drop k)

/-- `CRC_STREAM s`: CRC_INIT, then a CRC_BYTE for each byte. -/
def crcStreamActions (bs : List Byte) : List HostAction :=
  .issue (commandWord 0x01#8 0#8 0#8 0#8 0#16 0#16) ::
    bs.map (fun b => .issue (commandWord 0x02#8 b 0#8 0#8 0#16 0#16))

/-- `COPY_OUT`, `out` being `OBUF[0..OLEN)` as the host has read it (R53). -/
def copyOutActions (out : List Byte) : List HostAction := loadActions out

/-- What the host does after a MBAP_PARSE (or RTU_FROM_MBAP) on its stream `old` (rule R83's loop): wait for bytes
after NEED_MORE, else `CONSUME RES1` and, while bytes are left, parse again with the command word `w`. -/
def streamActions (w : CommandWord) (old : List Byte) (s : State) : List HostAction :=
  if s.status = .needMore then []
  else
    consumeActions old s.res1.toNat ++ (if s.res1.toNat < old.length then [.issue w] else [])

end Sys2Proof.Machine
end

