-- ==== Sys2Proof/Machine/Step.lean ====
section
/-! DEFINITION. Machine/Step.lean: one step of the machine is the host's next action, a command being one atomic step
within its `HostIssue` (rules R16, R40, R43). -/

namespace Sys2Proof.Machine

/-- One step: the host's next action. -/
def step (s : State) : Host.Outcome State Fault Refusal := hostStep s

/-- `s` with a row of the opcode table as the very next thing the block runs. The block fetches nothing (rule R28): a
command comes through `HostIssue`, so the word becomes the host's next action. Log entry 7. -/
def State.withFetchWord (s : State) (nbits w : Nat) : State := presentTableWord s nbits w

end Sys2Proof.Machine
end

