-- ==== Sys2Proof/Machine/Assembler.lean ====
section
/-! DEFINITION. Machine/Assembler.lean: the spec's assembler syntax (rule R52), from a statement
`MNEMONIC name=value, …` that is already split into its mnemonic and its operands. -/

namespace Sys2Proof.Machine

/-- An operand of R52's table: its name, the lowest bit of its field and the field's width (rule R46). -/
abbrev AsmOperand := String × Nat × Nat

/-- The opcode and the operands, in the order shown, of a mnemonic (rules R47, R52). -/
def asmRow (m : String) : Option (Opcode × List AsmOperand) :=
  if m = "NOP" then some (.nop, [])
  else if m = "CRC_INIT" then some (.crcInit, [])
  else if m = "CRC_BYTE" then some (.crcByte, [("byte", 8, 8)])
  else if m = "CRC_BLOCK" then some (.crcBlock, [])
  else if m = "CRC_LOAD" then some (.crcLoad, [("value", 32, 16)])
  else if m = "CRC16" then some (.crc16, [])
  else if m = "RTU_ENCODE" then some (.rtuEncode, [("slave", 8, 8)])
  else if m = "RTU_DECODE" then some (.rtuDecode, [])
  else if m = "RTU_DELIMIT" then some (.rtuDelimit, [("fc", 16, 8)])
  else if m = "WRITE_NORM" then some (.writeNorm, [])
  else if m = "WR_REG_FRAME" then some (.wrRegFrame, [("slave", 8, 8), ("addr", 32, 16), ("value", 48, 16)])
  else if m = "MBAP_PARSE" then some (.mbapParse, [])
  else if m = "MBAP_BUILD" then some (.mbapBuild, [("unit", 8, 8), ("tid", 32, 16)])
  else if m = "MBAP_EXCEPTION" then
    some (.mbapException, [("unit", 8, 8), ("fc", 16, 8), ("kind", 24, 8), ("tid", 32, 16), ("code", 48, 8)])
  else if m = "RTU_FROM_MBAP" then some (.rtuFromMbap, [])
  else if m = "MBAP_FROM_RTU" then some (.mbapFromRtu, [("unit", 8, 8), ("fc", 16, 8), ("tid", 32, 16)])
  else if m = "SET_CFG" then some (.setCfg, [("idx", 8, 8), ("value", 32, 16)])
  else if m = "GET_CFG" then some (.getCfg, [("idx", 8, 8)])
  else if m = "SOFT_RESET" then some (.softReset, [])
  else none

/-- The names that `kind` takes (rule R84). -/
def asmKind (s : String) : Option Nat :=
  if s = "TIMEOUT" then some 1
  else if s = "CRC_MISMATCH" then some 2
  else if s = "BUS_BUSY" then some 3
  else if s = "MODBUS_EXCEPTION" then some 4
  else if s = "MALFORMED_FRAME" then some 5
  else if s = "TRANSPORT_ERROR" then some 6
  else none

/-- The names that `idx` takes (R52: "A also as CTRL, MBAP_LEN_MAX, BUF_CAP"; for GET_CFG too, R103's example). Log
entry 15. -/
def asmIndex (s : String) : Option Nat :=
  if s = "CTRL" then some 0
  else if s = "MBAP_LEN_MAX" then some 1
  else if s = "BUF_CAP" then some 2
  else none

/-- The number an operand's value stands for. -/
def asmValue (operand : String) : AsmValue → Option Nat
  | .number n => some n
  | .name s => if operand = "kind" then asmKind s else if operand = "idx" then asmIndex s else none

/-- The operand bits of a statement (log entry 15): the operands given, each in its place in the order shown; "an omitted operand is
0" (R52). None for an unknown operand, one out of order, or a value too wide for its field. -/
def asmOperands : List AsmOperand → List (String × AsmValue) → Option CommandWord
  | _, [] => some 0#64
  | [], _ :: _ => none
  | (n, low, width) :: rows, (m, v) :: given =>
    if n = m then
      match asmValue n v, asmOperands rows given with
      | some x, some w => if x < 2 ^ width then some (BitVec.ofNat 64 x <<< low ||| w) else none
      | _, _ => none
    else asmOperands rows ((m, v) :: given)

/-- The command word that a statement assembles to (rule R52). -/
def assemble (mnemonic : String) (operands : List (String × AsmValue)) : Option CommandWord :=
  match asmRow mnemonic with
  | none => none
  | some (o, rows) => (asmOperands rows operands).map (fun w => opcodeMatch o ||| w)

end Sys2Proof.Machine
end

