-- ==== Sys2Proof/Safety.lean ====
section
/-! DEFINITION. Safety.lean: the terms statements about the machine are made in: the invariant of the block's state,
and what a state's input and output are. -/

namespace Sys2Proof.Machine

/-- The invariant: the buffers are in canonical form and hold bytes only below BUF_CAP (R34), BUF_CAP is in its legal
range (R7), CFG.CTRL's reserved bits are 0 (R25), CFG.MBAP_LEN_MAX is in its legal range (R26), OLEN is at most
BUF_CAP, and every byte of `OBUF[0..OLEN)` is defined (R24). -/
structure State.Inv (s : State) : Prop where
  ibuf_wf : Memory.wf s.ibuf
  obuf_wf : Memory.wf s.obuf
  ibuf_below : ∀ c ∈ s.ibuf, c.1 < bufCap s
  obuf_below : ∀ c ∈ s.obuf, c.1 < bufCap s
  bufCap_ge : 16 ≤ bufCap s
  ctrl_reserved : s.cfgCtrl.extractLsb' 1 15 = 0#15
  lenMax_ge : 2 ≤ s.cfgMbapLenMax.toNat
  lenMax_le : s.cfgMbapLenMax.toNat ≤ bufCap s - 6
  olen_le : s.olen.toNat ≤ bufCap s
  output_defined : (outputBytes s).isSome

/-- The input of `s` is the byte sequence `inp`, and a command may read it: ILEN is at most BUF_CAP (R61) and every byte
of `IBUF[0..ILEN)` has been written (R33). -/
abbrev InputIs (s : State) (inp : List Byte) : Prop := s.ilen.toNat ≤ bufCap s ∧ inputBytes s = some inp

/-- What no command changes (R21, R23, R27, R62): ILEN, every byte of IBUF, BUF_CAP, the three fields of the model's own;
and every byte of OBUF outside the stored bytes, which are `OBUF[0..OLEN)` of the new state `t` (R13, R24). -/
def Kept (s t : State) : Prop :=
  t.ilen = s.ilen ∧ (∀ a, memRead t.ibuf a = memRead s.ibuf a) ∧ t.cfgBufCap = s.cfgBufCap ∧
  t.hostQueue = s.hostQueue ∧ t.readData = s.readData ∧ t.draws = s.draws ∧
  ∀ a, t.olen.toNat ≤ a → memRead t.obuf a = memRead s.obuf a

/-- The configuration registers that SET_CFG and SOFT_RESET may write (R62) are as they were. -/
def CfgKept (s t : State) : Prop := t.cfgCtrl = s.cfgCtrl ∧ t.cfgMbapLenMax = s.cfgMbapLenMax

/-- The state `t` shows the completion `c`: STATUS, RES0 to RES2, OLEN and the output bytes (R13). -/
def Shows (t : State) (c : Completion) : Prop :=
  t.status = c.status ∧ t.res0 = c.res0 ∧ t.res1 = c.res1 ∧ t.res2 = c.res2 ∧
  t.olen.toNat = c.out.length ∧ outputBytes t = some c.out

/-- The command ANSWERS A NEXT STATE, which shows the completion `c` and in everything else is `s`: its registers, its
configuration, its input, and its OBUF outside the stored output. Where a command also writes a register, `s` is
written with that register at its new value. -/
def Ends (r : Host.Outcome State Fault Refusal) (s : State) (c : Completion) : Prop :=
  ∃ t, r = .next t ∧ Shows t c ∧ Kept s t ∧ t.crc = s.crc ∧ CfgKept s t

/-- The completion of a word that is no command (R49): it is `s` but for STATUS, RES0 to RES2 and OLEN. -/
def Rejected (r : Host.Outcome State Fault Refusal) (s : State) : Prop := Ends r s ⟨.badCommand, 0#16, 0#16, 0#16, []⟩

/-- The encoding and the BAD_COMMAND case of a command's rule (R47, R49): a word whose OP is `op` is the command `i w`
when its reserved-zero fields are zero, and completes BAD_COMMAND when one of them is not. -/
def EncodingRule (op : Byte) (reservedZero : CommandWord → Prop) (i : CommandWord → Instr) : Prop :=
  ∀ w s, fieldOp w = op →
    (reservedZero w → hostIssue w s = exec (i w) s) ∧ (¬ reservedZero w → Rejected (hostIssue w s) s)

/-- The BAD_ARG case of a command that reads the input (R61): ILEN past the buffer. -/
def BadArgPastBuffer (i : Instr) : Prop :=
  ∀ s, bufCap s < s.ilen.toNat → Ends (exec i s) s ⟨.badArg, 0#16, 0#16, 0#16, []⟩

/-- The three statuses' verdict of rule R78 once the response is expected to be `e` bytes long. -/
def DelimitAt (r : Host.Outcome State Fault Refusal) (s : State) (e : Nat) (inp : List Byte) : Prop :=
  (bufCap s < e → Ends r s ⟨.overflow, word e, 0#16, 0#16, []⟩) ∧
  (e ≤ bufCap s → e ≤ inp.length → Ends r s ⟨.ok, word e, word (inp.length - e), 0#16, []⟩) ∧
  (e ≤ bufCap s → inp.length < e → Ends r s ⟨.needMore, word e, 0#16, 0#16, []⟩)

/-- The verdict of rule R78 on `inp` for a request of class `cls`: an exception frame first, by its own five bytes; then
the class's expected length. -/
def DelimitVerdict (r : Host.Outcome State Fault Refusal) (s : State) (cls : ResponseClass) (inp : List Byte) : Prop :=
  (2 ≤ inp.length → isExceptionCode (byteAt inp 1) = true →
    (5 ≤ inp.length → crcOk (slice inp 0 5) = true → Ends r s ⟨.ok, 5#16, word (inp.length - 5), 1#16, []⟩) ∧
    (5 ≤ inp.length → crcOk (slice inp 0 5) = false → Ends r s ⟨.needMore, 5#16, 1#16, 1#16, []⟩) ∧
    (inp.length < 5 → Ends r s ⟨.needMore, 5#16, 0#16, 1#16, []⟩)) ∧
  (inp.length < 2 ∨ isExceptionCode (byteAt inp 1) = false →
    (cls = .readBc → inp.length < 3 → Ends r s ⟨.needMore, 0#16, 0#16, 0#16, []⟩) ∧
    (cls = .readBc → 3 ≤ inp.length → DelimitAt r s (3 + (byteAt inp 2).toNat + 2) inp) ∧
    (cls = .fixed8 → DelimitAt r s 8 inp) ∧
    (cls = .other → Ends r s ⟨.lengthUnknown, 0#16, 0#16, 0#16, []⟩))

/-- The operand `name` of an assembler statement (R52), given as a number or omitted. -/
def asmOperand {w : Nat} (name : String) : Option (BitVec w) → List (String × AsmValue)
  | some v => [(name, .number v.toNat)]
  | none => []

/-- Rule R47's `input` column: the command reads IN. A function-code row does as RTU_DELIMIT does (log entry 1). -/
def readsInput : Instr → Bool
  | .crcBlock | .crc16 | .rtuEncode _ | .rtuDecode | .rtuDelimit _ | .writeNorm => true
  | .mbapParse | .mbapBuild _ _ | .rtuFromMbap | .mbapFromRtu _ _ _ => true
  | .fcReadCoils | .fcReadDiscreteInputs | .fcReadHoldingRegisters | .fcReadInputRegisters => true
  | .fcWriteSingleCoil | .fcWriteSingleRegister | .fcWriteMultipleCoils | .fcWriteMultipleRegisters => true
  | .fcException _ => true
  | .nop | .crcInit | .crcByte _ | .crcLoad _ | .wrRegFrame _ _ _ | .mbapException _ _ _ _ _ => false
  | .setCfg _ _ | .getCfg _ | .softReset => false

/-- The commands that write CRC (R18). -/
def writesCrc : Instr → Bool
  | .crcInit | .crcByte _ | .crcBlock | .crcLoad _ | .crc16 | .softReset => true
  | .nop | .rtuEncode _ | .rtuDecode | .rtuDelimit _ | .writeNorm | .wrRegFrame _ _ _ => false
  | .mbapParse | .mbapBuild _ _ | .mbapException _ _ _ _ _ | .rtuFromMbap | .mbapFromRtu _ _ _ => false
  | .setCfg _ _ | .getCfg _ => false
  | .fcReadCoils | .fcReadDiscreteInputs | .fcReadHoldingRegisters | .fcReadInputRegisters => false
  | .fcWriteSingleCoil | .fcWriteSingleRegister | .fcWriteMultipleCoils | .fcWriteMultipleRegisters => false
  | .fcException _ => false

/-- The commands that write CFG (R62): SET_CFG and SOFT_RESET. -/
def writesCfg : Instr → Bool
  | .setCfg _ _ | .softReset => true
  | .nop | .crcInit | .crcByte _ | .crcBlock | .crcLoad _ | .crc16 => false
  | .rtuEncode _ | .rtuDecode | .rtuDelimit _ | .writeNorm | .wrRegFrame _ _ _ => false
  | .mbapParse | .mbapBuild _ _ | .mbapException _ _ _ _ _ | .rtuFromMbap | .mbapFromRtu _ _ _ => false
  | .getCfg _ => false
  | .fcReadCoils | .fcReadDiscreteInputs | .fcReadHoldingRegisters | .fcReadInputRegisters => false
  | .fcWriteSingleCoil | .fcWriteSingleRegister | .fcWriteMultipleCoils | .fcWriteMultipleRegisters => false
  | .fcException _ => false

/-- The statuses that a command can write besides BAD_COMMAND, which is the decoder's (R105's `written by` column; a
function-code row as RTU_DELIMIT, log entry 1). -/
def mayReport : Instr → List Status
  | .nop | .crcInit | .crcByte _ | .crcLoad _ | .wrRegFrame _ _ _ | .softReset => [.ok]
  | .crcBlock | .crc16 | .setCfg _ _ | .getCfg _ => [.ok, .badArg]
  | .rtuEncode _ | .writeNorm | .mbapBuild _ _ => [.ok, .overflow, .badArg]
  | .rtuDecode => [.ok, .crcMismatch, .tooShort, .exceptionFrame, .badArg]
  | .rtuDelimit _ => [.ok, .needMore, .lengthUnknown, .overflow, .badArg]
  | .mbapParse => [.ok, .needMore, .malformedFrame, .badArg]
  | .mbapException _ _ _ _ _ => [.ok, .noResponse, .badArg]
  | .rtuFromMbap => [.ok, .needMore, .malformedFrame, .overflow, .badArg]
  | .mbapFromRtu _ _ _ => [.ok, .crcMismatch, .tooShort, .exceptionFrame, .overflow, .badArg]
  | .fcReadCoils | .fcReadDiscreteInputs | .fcReadHoldingRegisters | .fcReadInputRegisters =>
    [.ok, .needMore, .lengthUnknown, .overflow, .badArg]
  | .fcWriteSingleCoil | .fcWriteSingleRegister | .fcWriteMultipleCoils | .fcWriteMultipleRegisters =>
    [.ok, .needMore, .lengthUnknown, .overflow, .badArg]
  | .fcException _ => [.ok, .needMore, .lengthUnknown, .overflow, .badArg]

/-- The commands whose result depends on the value of CRC before it: CRC_BYTE and CRC_BLOCK (R69, R70). -/
def readsCrc : Instr → Bool
  | .crcByte _ | .crcBlock => true
  | .nop | .crcInit | .crcLoad _ | .crc16 => false
  | .rtuEncode _ | .rtuDecode | .rtuDelimit _ | .writeNorm | .wrRegFrame _ _ _ => false
  | .mbapParse | .mbapBuild _ _ | .mbapException _ _ _ _ _ | .rtuFromMbap | .mbapFromRtu _ _ _ => false
  | .setCfg _ _ | .getCfg _ | .softReset => false
  | .fcReadCoils | .fcReadDiscreteInputs | .fcReadHoldingRegisters | .fcReadInputRegisters => false
  | .fcWriteSingleCoil | .fcWriteSingleRegister | .fcWriteMultipleCoils | .fcWriteMultipleRegisters => false
  | .fcException _ => false

end Sys2Proof.Machine
end

