-- ==== Sys2Proof/Certificates/Slice0/Obligations.lean ====
section
/-! DEFINITION. Certificates/Slice0/Obligations.lean: the statements about the machine. -/

open Sys2Proof Sys2Proof.Machine

/-! ## Reset, the host port and the step -/

/-- R115's state after `HostReset()`, "whatever state it was in before": the registers at their values, every IBUF byte
unwritten, every OBUF byte unspecified, BUF_CAP unchanged. Two things are the model's DESIGN CHOICE: the host's next
actions stand in a list (log entry 6), and a reset leaves the rest of that list (log entry 16). -/
def Obligations.PowerOnResetFromAnyState : Prop :=
  ∀ (s : State) (rest : List HostAction), s.hostQueue = .reset :: rest →
    ∃ t, step s = .next t ∧ t.hostQueue = rest ∧
      t.crc = 0xFFFF#16 ∧ t.status = .ok ∧ statusCode t.status = 0x00#8 ∧
      t.res0 = 0x0000#16 ∧ t.res1 = 0x0000#16 ∧ t.res2 = 0x0000#16 ∧ t.ilen = 0x0000#16 ∧ t.olen = 0x0000#16 ∧
      (∀ i, memRead t.ibuf i = none) ∧ (∀ i, obufByte i t = none) ∧
      t.cfgCtrl = 0x0001#16 ∧ t.cfgMbapLenMax.toNat = min 254 (bufCap s - 6) ∧ t.cfgBufCap = s.cfgBufCap

/-- The state after reset meets the invariant. BUF_CAP = 260 and the empty fields of the model's own are the model's
choice (log entries 2, 3 and 6). -/
def Obligations.ResetStateMeetsTheInvariant : Prop := State.reset.Inv

/-- The invariant is kept by every step from every state that meets it, not only from reachable ones: canonical buffers
inside BUF_CAP, a legal configuration, a defined output. -/
def Obligations.EveryStepKeepsTheInvariant : Prop :=
  ∀ s t : State, s.Inv → step s = .next t → t.Inv

/-- A step whose next host action is `HostIssue(w)` runs the instruction that `w` decodes to, on the state with that
action taken off the host's list (log entry 6: the list is the model's own). -/
def Obligations.StepRunsTheDecodedCommand : Prop :=
  ∀ (s : State) (w : CommandWord) (rest : List HostAction) (i : Instr),
    s.hostQueue = .issue w :: rest → decode w = .ok i → step s = exec i { s with hostQueue := rest }

/-- R117: after either reset, and whenever the host has nothing pending, the block does nothing; the input right after
power-on reset has no byte, so every command that reads it completes (it does not fault): RTU_DECODE with TOO_SHORT, and
RTU_DELIMIT with LENGTH_UNKNOWN or NEED_MORE by the class of R73 (R78). That a step with nothing pending leaves the
state as it is is the model's form of waiting (log entry 6). -/
def Obligations.BlockWaitsForTheHost : Prop :=
  (∀ s : State, s.hostQueue = [] → step s = .next s) ∧
  (∀ cap : Word, InputIs (State.powerOn cap) []) ∧
  (∀ (cap : Word) (i : Instr), readsInput i = true → ∃ t, exec i (State.powerOn cap) = .next t) ∧
  (∀ cap : Word, Ends (exec .rtuDecode (State.powerOn cap)) (State.powerOn cap) ⟨.tooShort, 0#16, 0#16, 0#16, []⟩) ∧
  (∀ (cap : Word) (fc : Byte), 8 ≤ cap.toNat → ∃ t, exec (.rtuDelimit fc) (State.powerOn cap) = .next t ∧
    t.status = if responseClass fc = .other then .lengthUnknown else .needMore)

/-- R31 and R40: what the host's writes and register reads do, each changing only what its row names (what a read returned
is kept in a field of the model's own, log entry 6), and the actions that name no location (R114). -/
def Obligations.HostActionsDoWhatTheirRowSays : Prop :=
  ∀ (s : State),
    (∀ i b, i < bufCap s → ∃ t, perform (.writeIbuf i b) s = .next t ∧ t = { s with ibuf := t.ibuf } ∧
      memRead t.ibuf i = some b ∧ ∀ a, a ≠ i → memRead t.ibuf a = memRead s.ibuf a) ∧
    (∀ i b, bufCap s ≤ i → perform (.writeIbuf i b) s = .refused .noSuchLocation) ∧
    (∀ v, perform (.writeIlen v) s = .next { s with ilen := v }) ∧
    (∀ r ∈ [Register.crc, .status, .res0, .res1, .res2, .ilen, .olen], ∃ v,
      perform (.readReg r) s = .next { s with readData := .register v } ∧
      (r = .crc → v = s.crc) ∧ (r = .status → v.toNat = (statusCode s.status).toNat) ∧ (r = .res0 → v = s.res0) ∧
      (r = .res1 → v = s.res1) ∧ (r = .res2 → v = s.res2) ∧ (r = .ilen → v = s.ilen) ∧ (r = .olen → v = s.olen)) ∧
    (∀ r ∈ [Register.cfgCtrl, .cfgMbapLenMax, .cfgBufCap],
      perform (.readReg r) s = .refused .registerNotReadable) ∧
    (∀ i, bufCap s ≤ i → perform (.readObuf i) s = .refused .noSuchLocation)

/-- R32: a host read of `OBUF[i]` returns the output's byte below OLEN and a draw, about which nothing is said, at and past
OLEN; it changes nothing of the block (what was read and the count of draws are the model's own, log entries 3 and 6).
The invariant says that the output is defined. -/
def Obligations.HostReadObufIsTheOutputOrADraw : Prop :=
  ∀ (s : State) (i : Nat), s.Inv → i < bufCap s →
    (i < s.olen.toNat → ∃ out b, outputBytes s = some out ∧ out[i]? = some b ∧
      perform (.readObuf i) s = .next { s with readData := .byte b }) ∧
    (s.olen.toNat ≤ i → ∃ b, perform (.readObuf i) s = .next { s with readData := .byte b, draws := s.draws + 1 })

/-- R53: the pseudo-instruction LOAD leaves exactly its bytes as the input, whatever was there, and CONSUME on the host's
copy of the input leaves the bytes after the first k; both touch nothing but IBUF below the length written and ILEN. The
host's list is the model's form (log entry 6), and for k above the input's length, where R53 gives no expansion, the
empty input is the model's DESIGN CHOICE (log entry 19). -/
def Obligations.LoadAndConsumeSetTheInput : Prop :=
  (∀ (s : State) (bs : List Byte) (rest : List HostAction), bs.length ≤ bufCap s →
    ∃ t : State, Host.Core.run Sys2Proof.core (bs.length + 1) { s with hostQueue := loadActions bs ++ rest } = .next t ∧
      InputIs t bs ∧ t = { s with ibuf := t.ibuf, ilen := t.ilen, hostQueue := rest } ∧
      ∀ a, bs.length ≤ a → memRead t.ibuf a = memRead s.ibuf a) ∧
  (∀ (s : State) (old : List Byte) (k : Nat), InputIs s old →
    ∃ t : State, Host.Core.run Sys2Proof.core (old.length - k + 1) { s with hostQueue := consumeActions old k } = .next t ∧
      InputIs t (old.drop k) ∧ t = { s with ibuf := t.ibuf, ilen := t.ilen, hostQueue := [] })

/-- R53: CRC_STREAM s "ends with the same CRC as LOAD s; CRC16", from any state and for any bytes that fit the buffer. The
host's list of actions is the model's form (log entry 6). -/
def Obligations.CrcStreamEqualsLoadThenCrc16 : Prop :=
  ∀ (s : State) (bs : List Byte), bs.length ≤ bufCap s →
    ∃ t u : State,
      Host.Core.run Sys2Proof.core (bs.length + 1) { s with hostQueue := crcStreamActions bs } = .next t ∧
      Host.Core.run Sys2Proof.core (bs.length + 2)
        { s with hostQueue := loadActions bs ++ [.issue 0x0000000000000005#64] } = .next u ∧
      t.crc = u.crc ∧ u.crc = crc16Of bs

/-! ## Encoding -/

/-- Decoding the encoding of a well-formed instruction gives it back, for every instruction and every operand. -/
def Obligations.DecodeOfEncodeIsTheInstruction : Prop :=
  ∀ i : Instr, i.wellFormed = true → decodeEncoded (encode i) = .ok i

/-- Whatever the decoder accepts is well-formed and is encoded as the word it came from: no two words are one
instruction. -/
def Obligations.EncodeOfDecodeIsTheWord : Prop :=
  ∀ (x : Encoded) (i : Instr), decodeEncoded x = .ok i → i.wellFormed = true ∧ encode i = x

/-- R49: a word is the command of the one opcode whose match it meets under its mask, with the operands of its fields; a
word that meets none completes BAD_COMMAND, which changes only STATUS, RES0 to RES2 and OLEN. So every word is one or
the other. -/
def Obligations.EveryWordIsACommandOrBadCommand : Prop :=
  ∀ (w : CommandWord) (s : State),
    (∀ o, w &&& opcodeMask o = opcodeMatch o →
      hostIssue w s = exec (instrOf o (w.extractLsb' 8 8) (w.extractLsb' 16 8) (w.extractLsb' 24 8)
        (w.extractLsb' 32 16) (w.extractLsb' 48 16)) s) ∧
    ((∀ o, w &&& opcodeMask o ≠ opcodeMatch o) → Rejected (hostIssue w s) s)

/-- R51: the reserved opcodes complete BAD_COMMAND, with no other effect, and so does a reserved-zero field that is not
zero. -/
def Obligations.ReservedWordsCompleteBadCommand : Prop :=
  ∀ (w : CommandWord) (s : State),
    (let op := (w.extractLsb' 0 8).toNat
     (0x06 ≤ op ∧ op ≤ 0x0F) ∨ (0x15 ≤ op ∧ op ≤ 0x1F) ∨ (0x25 ≤ op ∧ op ≤ 0x2F) ∨ (0x32 ≤ op ∧ op ≤ 0x7E) ∨
       0x80 ≤ op) ∨
    (∃ o, opcodeByte o = w.extractLsb' 0 8 ∧ w &&& opcodeMask o ≠ opcodeMatch o) →
    Rejected (hostIssue w s) s

/-- Words written out by hand from rule R47's fields, one of every family, decode to the instructions they stand for. -/
def Obligations.HandWrittenWordsDecode : Prop :=
  decode 0x0000000000000000#64 = .ok .nop ∧
  decode 0x0000000000005602#64 = .ok (.crcByte 0x56#8) ∧
  decode 0x0000000000100012#64 = .ok (.rtuDelimit 0x10#8) ∧
  decode 0x0004000701030122#64 = .ok (.mbapException 0x01#8 0x03#8 0x01#8 0x0007#16 0x0004#16) ∧
  decode 0x04D2006400000114#64 = .ok (.wrRegFrame 0x01#8 0x0064#16 0x04D2#16) ∧
  decode 0x000000FE00000130#64 = .ok (.setCfg 0x01#8 0x00FE#16) ∧
  decodeFunctionCode 0x10#8 = .ok .fcWriteMultipleRegisters

/-- R38: a command word sent least-significant byte first is read back from the stream, with the bytes after it left. -/
def Obligations.SerialisedWordIsRead : Prop :=
  ∀ (w : CommandWord) (rest : List Byte),
    commandBytes w = (List.range 8).map (fun k => w.extractLsb' (8 * k) 8) ∧
    decodeBytes (commandBytes w ++ rest) = (decode w).map (fun i => (i, rest))

/-- R52: a statement of the assembler syntax, its operands in the order shown, assembles to the command's encoding: for every
mnemonic, with each operand given as a number or omitted (then it is 0), and with the names of `kind` (R84) and of `idx`.
That the statement is already split into its mnemonic and its operands is the model's DESIGN CHOICE, log entry 15. -/
def Obligations.AssembledStatementsAreEncodings : Prop :=
  (∀ x ∈ [("NOP", Instr.nop), ("CRC_INIT", .crcInit), ("CRC_BLOCK", .crcBlock), ("CRC16", .crc16),
      ("RTU_DECODE", .rtuDecode), ("WRITE_NORM", .writeNorm), ("MBAP_PARSE", .mbapParse),
      ("RTU_FROM_MBAP", .rtuFromMbap), ("SOFT_RESET", .softReset)],
    (assemble x.1 []).map Encoded.command = some (encode x.2)) ∧
  (∀ (a b c k : Option Byte) (d e : Option Word),
    (assemble "CRC_BYTE" (asmOperand "byte" a)).map Encoded.command = some (encode (.crcByte (a.getD 0#8))) ∧
    (assemble "CRC_LOAD" (asmOperand "value" d)).map Encoded.command = some (encode (.crcLoad (d.getD 0#16))) ∧
    (assemble "RTU_ENCODE" (asmOperand "slave" a)).map Encoded.command = some (encode (.rtuEncode (a.getD 0#8))) ∧
    (assemble "RTU_DELIMIT" (asmOperand "fc" b)).map Encoded.command = some (encode (.rtuDelimit (b.getD 0#8))) ∧
    (assemble "WR_REG_FRAME" (asmOperand "slave" a ++ asmOperand "addr" d ++ asmOperand "value" e)).map Encoded.command =
      some (encode (.wrRegFrame (a.getD 0#8) (d.getD 0#16) (e.getD 0#16))) ∧
    (assemble "MBAP_BUILD" (asmOperand "unit" a ++ asmOperand "tid" d)).map Encoded.command =
      some (encode (.mbapBuild (a.getD 0#8) (d.getD 0#16))) ∧
    (assemble "MBAP_EXCEPTION" (asmOperand "unit" a ++ asmOperand "fc" b ++ asmOperand "kind" c ++ asmOperand "tid" d ++
      asmOperand "code" k)).map Encoded.command =
      some (encode (.mbapException (a.getD 0#8) (b.getD 0#8) (c.getD 0#8) (d.getD 0#16) ((k.getD 0#8).setWidth 16))) ∧
    (assemble "MBAP_FROM_RTU" (asmOperand "unit" a ++ asmOperand "fc" b ++ asmOperand "tid" d)).map Encoded.command =
      some (encode (.mbapFromRtu (a.getD 0#8) (b.getD 0#8) (d.getD 0#16))) ∧
    (assemble "SET_CFG" (asmOperand "idx" a ++ asmOperand "value" d)).map Encoded.command =
      some (encode (.setCfg (a.getD 0#8) (d.getD 0#16))) ∧
    (assemble "GET_CFG" (asmOperand "idx" a)).map Encoded.command = some (encode (.getCfg (a.getD 0#8)))) ∧
  (∀ x ∈ [("TIMEOUT", 0x01#8), ("CRC_MISMATCH", 0x02#8), ("BUS_BUSY", 0x03#8), ("MODBUS_EXCEPTION", 0x04#8),
      ("MALFORMED_FRAME", 0x05#8), ("TRANSPORT_ERROR", 0x06#8)],
    ∀ (a b k : Option Byte) (d : Option Word),
      (assemble "MBAP_EXCEPTION" (asmOperand "unit" a ++ asmOperand "fc" b ++ [("kind", .name x.1)] ++ asmOperand "tid" d ++
        asmOperand "code" k)).map Encoded.command =
        some (encode (.mbapException (a.getD 0#8) (b.getD 0#8) x.2 (d.getD 0#16) ((k.getD 0#8).setWidth 16)))) ∧
  (∀ x ∈ [("CTRL", 0x00#8), ("MBAP_LEN_MAX", 0x01#8), ("BUF_CAP", 0x02#8)],
    (∀ d : Option Word, (assemble "SET_CFG" (("idx", .name x.1) :: asmOperand "value" d)).map Encoded.command =
      some (encode (.setCfg x.2 (d.getD 0#16)))) ∧
    (assemble "GET_CFG" [("idx", .name x.1)]).map Encoded.command = some (encode (.getCfg x.2)))

/-! ## Whole-machine rules -/

/-- R62: what an instruction leaves alone, for every instruction: ILEN, IBUF and the rest of `Kept` always, with OBUF
changed only in the stored `OBUF[0..OLEN)`; CRC unless the instruction is one of R18's; CFG unless it is SET_CFG or
SOFT_RESET. -/
def Obligations.EveryInstructionKeepsItsFrame : Prop :=
  ∀ (i : Instr) (s t : State), exec i s = .next t →
    Kept s t ∧ (writesCrc i = false → t.crc = s.crc) ∧ (writesCfg i = false → CfgKept s t)

/-- R108: a command that fails, that is, one that completes with a status that carries no output frame, changes nothing but
STATUS, RES0 to RES2 and OLEN. (MBAP_FROM_RTU answers CRC_MISMATCH and TOO_SHORT with a frame, R92.) -/
def Obligations.FailedCommandChangesOnlyItsResults : Prop :=
  ∀ (i : Instr) (s t : State), exec i s = .next t →
    (t.status ∈ [Status.needMore, .lengthUnknown, .malformedFrame, .noResponse, .overflow, .badArg, .badCommand] ∨
      t.status ∈ [Status.crcMismatch, .tooShort] ∧ ∀ a b d, i ≠ .mbapFromRtu a b d) →
    t = { s with status := t.status, res0 := t.res0, res1 := t.res1, res2 := t.res2, olen := 0#16 }

/-- R105: the eleven codes and their values, and which commands write which. -/
def Obligations.StatusCodesAndTheirWriters : Prop :=
  (statusCode .ok = 0x00#8 ∧ statusCode .needMore = 0x01#8 ∧ statusCode .lengthUnknown = 0x02#8 ∧
    statusCode .crcMismatch = 0x03#8 ∧ statusCode .tooShort = 0x04#8 ∧ statusCode .exceptionFrame = 0x05#8 ∧
    statusCode .malformedFrame = 0x06#8 ∧ statusCode .noResponse = 0x07#8 ∧ statusCode .overflow = 0x08#8 ∧
    statusCode .badArg = 0x09#8 ∧ statusCode .badCommand = 0x0A#8) ∧
  (∀ st : Status, (statusCode st).toNat ≤ 0x0A) ∧
  (∀ (i : Instr) (s t : State), exec i s = .next t → t.status ∈ mayReport i) ∧
  (∀ (w : CommandWord) (s t : State), hostIssue w s = .next t → t.status = .badCommand →
    ∀ i, decode w ≠ .ok i)

/-- R33 and R114: an instruction faults exactly when it reads the input, ILEN is within the buffer, and a byte of
`IBUF[0..ILEN)` is unwritten; it is never refused, and otherwise it completes. (The whole input is read at the start:
DEDUCED, log entry 8.) -/
def Obligations.FaultExactlyOnUnwrittenInput : Prop :=
  ∀ (i : Instr) (s : State),
    ((readsInput i = true ∧ s.ilen.toNat ≤ bufCap s ∧ ∃ a, a < s.ilen.toNat ∧ memRead s.ibuf a = none) →
      exec i s = .fault .unwrittenInput) ∧
    (¬ (readsInput i = true ∧ s.ilen.toNat ≤ bufCap s ∧ ∃ a, a < s.ilen.toNat ∧ memRead s.ibuf a = none) →
      ∃ t, exec i s = .next t)

/-- R61: a command that reads the input checks ILEN first; one that does not ignores it. -/
def Obligations.InputLengthIsCheckedFirst : Prop :=
  (∀ i, readsInput i = true → BadArgPastBuffer i) ∧
  (∀ (i : Instr) (s t : State) (v : Word), readsInput i = false → exec i s = .next t →
    exec i { s with ilen := v } = .next { t with ilen := v })

/-- R30 (with R29): a command's outcome depends only on the command, its input and CFG, and on CRC for CRC_BYTE and
CRC_BLOCK alone: two states that agree on those end with the same status, results, output and, where the command
writes it, CRC, whatever the old STATUS, RES0 to RES2, OLEN and OBUF of each. -/
def Obligations.OutcomeDependsOnlyOnInputAndConfiguration : Prop :=
  ∀ (i : Instr) (s u t : State),
    s.ilen = u.ilen → inputBytes s = inputBytes u → s.cfgCtrl = u.cfgCtrl → s.cfgMbapLenMax = u.cfgMbapLenMax →
    s.cfgBufCap = u.cfgBufCap → (readsCrc i = true → s.crc = u.crc) → exec i s = .next t →
    ∃ v, exec i u = .next v ∧ v.status = t.status ∧ v.res0 = t.res0 ∧ v.res1 = t.res1 ∧ v.res2 = t.res2 ∧
      v.olen = t.olen ∧ (∃ out, outputBytes t = some out ∧ outputBytes v = some out) ∧
      (writesCrc i = true → t.status ≠ .badArg → v.crc = t.crc) ∧
      v.cfgCtrl = t.cfgCtrl ∧ v.cfgMbapLenMax = t.cfgMbapLenMax

/-! ## CRC -/

/-- R66: for a frame of three bytes or more, `crc_ok` (the trailer is the CRC of the body) is the same as a CRC of 0 over
the whole frame. -/
def Obligations.CrcOkIsAZeroResidue : Prop :=
  ∀ s : List Byte, 3 ≤ s.length →
    (crcOk s = true ↔
      crc16Of (s.take (s.length - 2)) = le16 (byteAt s (s.length - 2)) (byteAt s (s.length - 1))) ∧
    (crcOk s = true ↔ crc16Of s = 0x0000#16)

/-- R68. -/
def Obligations.CrcInitResult : Prop :=
  EncodingRule 0x01#8 (fun w => fieldA w = 0 ∧ fieldB w = 0 ∧ fieldC w = 0 ∧ fieldD w = 0 ∧ fieldE w = 0)
    (fun _ => .crcInit) ∧
  ∀ s : State, Ends (exec .crcInit s) { s with crc := 0xFFFF#16 } ⟨.ok, 0xFFFF#16, 0#16, 0#16, []⟩

/-- R69. -/
def Obligations.CrcByteResult : Prop :=
  EncodingRule 0x02#8 (fun w => fieldB w = 0 ∧ fieldC w = 0 ∧ fieldD w = 0 ∧ fieldE w = 0)
    (fun w => .crcByte (fieldA w)) ∧
  (∀ (b : Byte) (s : State), Ends (exec (.crcByte b) s) { s with crc := crcStep s.crc b }
    ⟨.ok, crcStep s.crc b, 0#16, 0#16, []⟩) ∧
  crcStep 0xFFFF#16 0x00#8 = 0x40BF#16 ∧ crcStep 0x0000#16 0x00#8 = 0x0000#16

/-- R70, with its corner cases: an empty input leaves CRC as it is, and a block over `a` and then one over `b` is one block
over `a ‖ b`. -/
def Obligations.CrcBlockResult : Prop :=
  EncodingRule 0x03#8 (fun w => fieldA w = 0 ∧ fieldB w = 0 ∧ fieldC w = 0 ∧ fieldD w = 0 ∧ fieldE w = 0)
    (fun _ => .crcBlock) ∧
  BadArgPastBuffer .crcBlock ∧
  (∀ (s : State) (inp : List Byte), InputIs s inp →
    Ends (exec .crcBlock s) { s with crc := inp.foldl crcStep s.crc } ⟨.ok, inp.foldl crcStep s.crc, 0#16, 0#16, []⟩) ∧
  (∀ s : State, s.ilen = 0#16 → Ends (exec .crcBlock s) s ⟨.ok, s.crc, 0#16, 0#16, []⟩) ∧
  (∀ (s t u v w x : State) (a b : List Byte), InputIs s a → exec .crcBlock s = .next t →
    InputIs u b → u.crc = t.crc → exec .crcBlock u = .next v →
    InputIs w (a ++ b) → w.crc = s.crc → exec .crcBlock w = .next x → x.crc = v.crc)

/-- R71. -/
def Obligations.CrcLoadResult : Prop :=
  EncodingRule 0x04#8 (fun w => fieldA w = 0 ∧ fieldB w = 0 ∧ fieldC w = 0 ∧ fieldE w = 0)
    (fun w => .crcLoad (fieldD w)) ∧
  ∀ (v : Word) (s : State), Ends (exec (.crcLoad v) s) { s with crc := v } ⟨.ok, v, 0#16, 0#16, []⟩

/-- R72: the CRC of the input from scratch, its trailer bytes low byte first; over a CRC-valid frame it is 0. -/
def Obligations.Crc16Result : Prop :=
  EncodingRule 0x05#8 (fun w => fieldA w = 0 ∧ fieldB w = 0 ∧ fieldC w = 0 ∧ fieldD w = 0 ∧ fieldE w = 0)
    (fun _ => .crc16) ∧
  BadArgPastBuffer .crc16 ∧
  (∀ (s : State) (inp : List Byte), InputIs s inp →
    Ends (exec .crc16 s) { s with crc := crc16Of inp } ⟨.ok, crc16Of inp, 0#16, 0#16, [lo (crc16Of inp), hi (crc16Of inp)]⟩ ∧
    (inp = [] → crc16Of inp = 0xFFFF#16) ∧ (crcOk inp = true → crc16Of inp = 0x0000#16))

/-! ## RTU frames -/

/-- R76: the frame `slave ‖ PDU ‖ LE(CRC16)`, for every slave id and every PDU that fits; else BAD_ARG or OVERFLOW. -/
def Obligations.RtuEncodeResult : Prop :=
  EncodingRule 0x10#8 (fun w => fieldB w = 0 ∧ fieldC w = 0 ∧ fieldD w = 0 ∧ fieldE w = 0)
    (fun w => .rtuEncode (fieldA w)) ∧
  (∀ a, BadArgPastBuffer (.rtuEncode a)) ∧
  (∀ (s : State) (a : Byte) (inp : List Byte), InputIs s inp →
    (inp.length = 0 → Ends (exec (.rtuEncode a) s) s ⟨.badArg, 0#16, 0#16, 0#16, []⟩) ∧
    (0 < inp.length → bufCap s < inp.length + 3 → Ends (exec (.rtuEncode a) s) s ⟨.overflow, 0#16, 0#16, 0#16, []⟩) ∧
    (0 < inp.length → inp.length + 3 ≤ bufCap s →
      Ends (exec (.rtuEncode a) s) s ⟨.ok, crc16Of (a :: inp), 0#16, 0#16,
        a :: inp ++ [lo (crc16Of (a :: inp)), hi (crc16Of (a :: inp))]⟩))

/-- R77: the verdicts in their order, with their results, and the PDU as the output of an accepted frame. -/
def Obligations.RtuDecodeResult : Prop :=
  EncodingRule 0x11#8 (fun w => fieldA w = 0 ∧ fieldB w = 0 ∧ fieldC w = 0 ∧ fieldD w = 0 ∧ fieldE w = 0)
    (fun _ => .rtuDecode) ∧
  BadArgPastBuffer .rtuDecode ∧
  (∀ (s : State) (inp : List Byte), InputIs s inp →
    (inp.length < 4 → Ends (exec .rtuDecode s) s ⟨.tooShort, 0#16, 0#16, 0#16, []⟩) ∧
    (∀ c r : Word, 4 ≤ inp.length → c = crc16Of (inp.take (inp.length - 2)) →
      r = le16 (byteAt inp (inp.length - 2)) (byteAt inp (inp.length - 1)) →
      (c ≠ r → Ends (exec .rtuDecode s) s ⟨.crcMismatch, c, r, 0#16, []⟩) ∧
      (c = r → isExceptionCode (byteAt inp 1) = true → inp.length = 4 →
        Ends (exec .rtuDecode s) s ⟨.tooShort, 0#16, 0#16, 0#16, []⟩) ∧
      (c = r → isExceptionCode (byteAt inp 1) = true → 5 ≤ inp.length →
        Ends (exec .rtuDecode s) s ⟨.exceptionFrame, zext (byteAt inp 0), zext (byteAt inp 1), zext (byteAt inp 2),
          (inp.take (inp.length - 2)).drop 1⟩) ∧
      (c = r → isExceptionCode (byteAt inp 1) = false →
        Ends (exec .rtuDecode s) s ⟨.ok, zext (byteAt inp 0), zext (byteAt inp 1), 0#16,
          (inp.take (inp.length - 2)).drop 1⟩)))

/-- R78 with the classes of R73: RTU_DELIMIT's verdict for every function code of the request. -/
def Obligations.RtuDelimitResult : Prop :=
  EncodingRule 0x12#8 (fun w => fieldA w = 0 ∧ fieldC w = 0 ∧ fieldD w = 0 ∧ fieldE w = 0)
    (fun w => .rtuDelimit (fieldB w)) ∧
  (∀ fc, BadArgPastBuffer (.rtuDelimit fc)) ∧
  (∀ (s : State) (fc : Byte) (inp : List Byte), InputIs s inp →
    (fc ∈ [0x01#8, 0x02#8, 0x03#8, 0x04#8] → DelimitVerdict (exec (.rtuDelimit fc) s) s .readBc inp) ∧
    (fc ∈ [0x05#8, 0x06#8, 0x0F#8, 0x10#8] → DelimitVerdict (exec (.rtuDelimit fc) s) s .fixed8 inp) ∧
    (fc ∉ [0x01#8, 0x02#8, 0x03#8, 0x04#8, 0x05#8, 0x06#8, 0x0F#8, 0x10#8] →
      DelimitVerdict (exec (.rtuDelimit fc) s) s .other inp))

/-- The function-code rows of R56 and their classes. That running a row is RTU_DELIMIT's verdict with that code in its
`fc` operand is the model's choice (log entry 1); the classes are R56's column, R73's for a request. -/
def Obligations.FunctionCodeRowsRunTheirClass : Prop :=
  (∀ (v : Byte) (i : Instr) (s : State), decodeFunctionCode v = .ok i → exec i s = exec (.rtuDelimit v) s) ∧
  (∀ (s : State) (inp : List Byte), InputIs s inp →
    (∀ i ∈ [Instr.fcReadCoils, .fcReadDiscreteInputs, .fcReadHoldingRegisters, .fcReadInputRegisters],
      DelimitVerdict (exec i s) s .readBc inp) ∧
    (∀ i ∈ [Instr.fcWriteSingleCoil, .fcWriteSingleRegister, .fcWriteMultipleCoils, .fcWriteMultipleRegisters],
      DelimitVerdict (exec i s) s .fixed8 inp) ∧
    (∀ v : Byte, v.getLsbD 7 = true → DelimitVerdict (exec (.fcException v) s) s .other inp)) ∧
  (∀ (s : State) (inp : List Byte), InputIs s inp →
    ∀ i ∈ [Instr.fcReadCoils, .fcReadDiscreteInputs, .fcReadHoldingRegisters, .fcReadInputRegisters,
      .fcWriteSingleCoil, .fcWriteSingleRegister, .fcWriteMultipleCoils, .fcWriteMultipleRegisters, .fcException 0x83#8],
      ∃ t, exec i s = .next t)

/-- R79: RTU_ENCODE undoes RTU_DECODE on every accepted frame, and RTU_DECODE undoes RTU_ENCODE on every frame it made. -/
def Obligations.RtuRoundTrip : Prop :=
  (∀ (s t u : State) (inp p : List Byte), InputIs s inp → exec .rtuDecode s = .next t →
    (t.status = .ok ∨ t.status = .exceptionFrame) → outputBytes t = some p →
    InputIs u p → u.cfgBufCap = s.cfgBufCap →
    ∃ v, exec (.rtuEncode (t.res0.setWidth 8)) u = .next v ∧ v.status = .ok ∧ outputBytes v = some inp) ∧
  (∀ (s t u : State) (a : Byte) (p f : List Byte), InputIs s p → exec (.rtuEncode a) s = .next t → t.status = .ok →
    outputBytes t = some f → InputIs u f →
    ∃ v, exec .rtuDecode u = .next v ∧
      (isExceptionCode (byteAt p 0) = false →
        v.status = .ok ∧ v.res0 = zext a ∧ v.res1 = zext (byteAt p 0) ∧ outputBytes v = some p) ∧
      (isExceptionCode (byteAt p 0) = true → 2 ≤ p.length → v.status = .exceptionFrame) ∧
      (isExceptionCode (byteAt p 0) = true → p.length = 1 → v.status = .tooShort))

/-- R80: changing any single byte of a frame that RTU_DECODE accepts makes it complete CRC_MISMATCH. -/
def Obligations.SingleByteCorruptionIsRejected : Prop :=
  ∀ (s t u : State) (inp : List Byte) (k : Nat) (b : Byte), InputIs s inp → exec .rtuDecode s = .next t →
    (t.status = .ok ∨ t.status = .exceptionFrame) → k < inp.length → b ≠ byteAt inp k → InputIs u (inp.set k b) →
    ∃ v, exec .rtuDecode u = .next v ∧ v.status = .crcMismatch

/-- R67: every RTU frame the block produces (RTU_ENCODE, WR_REG_FRAME, RTU_FROM_MBAP) ends with the CRC of the bytes before
it, low byte first. -/
def Obligations.ProducedFramesEndInTheirCrc : Prop :=
  ∀ (i : Instr) (s t : State),
    ((∃ a, i = .rtuEncode a) ∨ (∃ a d e, i = .wrRegFrame a d e) ∨ i = .rtuFromMbap) →
    exec i s = .next t → t.status = .ok →
    ∃ rest, outputBytes t = some (rest ++ [lo (crc16Of rest), hi (crc16Of rest)]) ∧ 2 ≤ rest.length

/-! ## Write normalisation -/

/-- R97 with R95 and R96: with WRNORM set, exactly the 5-byte 0x06 PDUs are rewritten; every other PDU is copied. -/
def Obligations.WriteNormResult : Prop :=
  EncodingRule 0x13#8 (fun w => fieldA w = 0 ∧ fieldB w = 0 ∧ fieldC w = 0 ∧ fieldD w = 0 ∧ fieldE w = 0)
    (fun _ => .writeNorm) ∧
  BadArgPastBuffer .writeNorm ∧
  (∀ (s : State) (inp : List Byte), InputIs s inp →
    (inp = [] → Ends (exec .writeNorm s) s ⟨.badArg, 0#16, 0#16, 0#16, []⟩) ∧
    (∀ ah al vh vl, inp = [0x06#8, ah, al, vh, vl] → s.cfgCtrl.getLsbD 0 = true → 16 ≤ bufCap s →
      Ends (exec .writeNorm s) s ⟨.ok, 1#16, 0#16, 0#16, [0x10#8, ah, al, 0x00#8, 0x01#8, 0x02#8, vh, vl]⟩) ∧
    (inp ≠ [] → (s.cfgCtrl.getLsbD 0 = false ∨ inp.length ≠ 5 ∨ byteAt inp 0 ≠ 0x06#8) →
      Ends (exec .writeNorm s) s ⟨.ok, 0#16, 0#16, 0#16, inp⟩))

/-- R98: the dispatcher's frame under both policies, for every slave, address and value. -/
def Obligations.WrRegFrameResult : Prop :=
  EncodingRule 0x14#8 (fun w => fieldB w = 0 ∧ fieldC w = 0) (fun w => .wrRegFrame (fieldA w) (fieldD w) (fieldE w)) ∧
  (∀ (s : State) (a : Byte) (d e : Word) (body : List Byte),
    (s.cfgCtrl.getLsbD 0 = true → body = [a, 0x10#8, hi d, lo d, 0x00#8, 0x01#8, 0x02#8, hi e, lo e] →
      Ends (exec (.wrRegFrame a d e) s) s ⟨.ok, crc16Of body, 0x0010#16, 0#16,
        body ++ [lo (crc16Of body), hi (crc16Of body)]⟩) ∧
    (s.cfgCtrl.getLsbD 0 = false → body = [a, 0x06#8, hi d, lo d, hi e, lo e] →
      Ends (exec (.wrRegFrame a d e) s) s ⟨.ok, crc16Of body, 0x0006#16, 0#16,
        body ++ [lo (crc16Of body), hi (crc16Of body)]⟩))

/-- R99: with WRNORM = 1 a register write reaches the wire as one and the same 0x10 frame along all three paths: the
dispatcher's write, a TCP 0x06 request, and a TCP 0x10 request with quantity 1. -/
def Obligations.RegisterWritesReachTheWireAlike : Prop :=
  ∀ (s : State) (slave : Byte) (addr value tid : Word) (body : List Byte), s.Inv → s.cfgCtrl.getLsbD 0 = true →
    body = [slave, 0x10#8, hi addr, lo addr, 0x00#8, 0x01#8, 0x02#8, hi value, lo value] →
    (∃ t, exec (.wrRegFrame slave addr value) s = .next t ∧ t.status = .ok ∧
      outputBytes t = some (body ++ [lo (crc16Of body), hi (crc16Of body)])) ∧
    (InputIs s [hi tid, lo tid, 0x00#8, 0x00#8, 0x00#8, 0x06#8, slave, 0x06#8, hi addr, lo addr, hi value, lo value] →
      6 ≤ s.cfgMbapLenMax.toNat →
      ∃ t, exec .rtuFromMbap s = .next t ∧ t.status = .ok ∧
        outputBytes t = some (body ++ [lo (crc16Of body), hi (crc16Of body)])) ∧
    (InputIs s [hi tid, lo tid, 0x00#8, 0x00#8, 0x00#8, 0x09#8, slave, 0x10#8, hi addr, lo addr, 0x00#8, 0x01#8, 0x02#8,
        hi value, lo value] →
      9 ≤ s.cfgMbapLenMax.toNat →
      ∃ t, exec .rtuFromMbap s = .next t ∧ t.status = .ok ∧
        outputBytes t = some (body ++ [lo (crc16Of body), hi (crc16Of body)]))

/-! ## MBAP frames -/

/-- R88 with R81 and R82: the checks in their order, with what each reports; bytes after the first frame are ignored. -/
def Obligations.MbapParseResult : Prop :=
  EncodingRule 0x20#8 (fun w => fieldA w = 0 ∧ fieldB w = 0 ∧ fieldC w = 0 ∧ fieldD w = 0 ∧ fieldE w = 0)
    (fun _ => .mbapParse) ∧
  BadArgPastBuffer .mbapParse ∧
  (∀ (s : State) (inp : List Byte) (t pid : Word) (len : Nat), InputIs s inp →
    t = be16 (byteAt inp 0) (byteAt inp 1) → pid = be16 (byteAt inp 2) (byteAt inp 3) →
    len = (be16 (byteAt inp 4) (byteAt inp 5)).toNat →
    (inp.length < 7 → Ends (exec .mbapParse s) s ⟨.needMore, 0#16, 0#16, 0#16, []⟩) ∧
    (7 ≤ inp.length → len = 0 ∨ s.cfgMbapLenMax.toNat < len →
      Ends (exec .mbapParse s) s ⟨.malformedFrame, t, word inp.length, 0#16, []⟩) ∧
    (7 ≤ inp.length → len = 1 → len ≤ s.cfgMbapLenMax.toNat →
      Ends (exec .mbapParse s) s ⟨.malformedFrame, t, 7#16, 0#16, []⟩) ∧
    (7 ≤ inp.length → 2 ≤ len → len ≤ s.cfgMbapLenMax.toNat → inp.length < 6 + len →
      Ends (exec .mbapParse s) s ⟨.needMore, t, word (6 + len), 0#16, []⟩) ∧
    (2 ≤ len → len ≤ s.cfgMbapLenMax.toNat → 6 + len ≤ inp.length → pid ≠ 0#16 →
      Ends (exec .mbapParse s) s ⟨.malformedFrame, t, word (6 + len), 0#16, []⟩) ∧
    (2 ≤ len → len ≤ s.cfgMbapLenMax.toNat → 6 + len ≤ inp.length → pid = 0#16 →
      Ends (exec .mbapParse s) s ⟨.ok, t, word (6 + len), zext (byteAt inp 6), (inp.take (6 + len)).drop 7⟩))

/-- R122: MBAP_PARSE removes nothing: until the host consumes the frame, parsing again finds the same frame. -/
def Obligations.ParsingAgainFindsTheSameFrame : Prop :=
  ∀ s t : State, exec .mbapParse s = .next t →
    ∃ v, exec .mbapParse t = .next v ∧ v.status = t.status ∧ v.res0 = t.res0 ∧ v.res1 = t.res1 ∧ v.res2 = t.res2 ∧
      v.olen = t.olen ∧ outputBytes v = outputBytes t

/-- R89: the frame `BE(tid) 00 00 BE(1 + len) unit PDU`, for every unit and transaction id and every PDU that fits. -/
def Obligations.MbapBuildResult : Prop :=
  EncodingRule 0x21#8 (fun w => fieldB w = 0 ∧ fieldC w = 0 ∧ fieldE w = 0)
    (fun w => .mbapBuild (fieldA w) (fieldD w)) ∧
  (∀ a d, BadArgPastBuffer (.mbapBuild a d)) ∧
  (∀ (s : State) (unit : Byte) (tid len : Word) (inp : List Byte), InputIs s inp → len = word (1 + inp.length) →
    (inp = [] → Ends (exec (.mbapBuild unit tid) s) s ⟨.badArg, 0#16, 0#16, 0#16, []⟩) ∧
    (inp ≠ [] → bufCap s < inp.length + 7 → Ends (exec (.mbapBuild unit tid) s) s ⟨.overflow, 0#16, 0#16, 0#16, []⟩) ∧
    (inp ≠ [] → inp.length + 7 ≤ bufCap s →
      Ends (exec (.mbapBuild unit tid) s) s
        ⟨.ok, tid, len, 0#16, [hi tid, lo tid, 0x00#8, 0x00#8, hi len, lo len, unit] ++ inp⟩))

/-- R90 with R84 to R86: the exception response for the kinds that call for one, NO_RESPONSE for the two that do not, and
BAD_ARG for every other kind; the input is not read. -/
def Obligations.MbapExceptionResult : Prop :=
  EncodingRule 0x22#8 (fun w => (fieldE w).extractLsb' 8 8 = 0)
    (fun w => .mbapException (fieldA w) (fieldB w) (fieldC w) (fieldD w) (fieldE w)) ∧
  (∀ (s : State) (u f c k : Byte) (t e : Word), e = k.setWidth 16 →
    (c = 0x01#8 ∨ c = 0x02#8 ∨ c = 0x03#8 →
      Ends (exec (.mbapException u f c t e) s) s
        ⟨.ok, t, 0x000B#16, 0#16, [hi t, lo t, 0x00#8, 0x00#8, 0x00#8, 0x03#8, u, f ||| 0x80#8, 0x0B#8]⟩) ∧
    (c = 0x04#8 →
      Ends (exec (.mbapException u f c t e) s) s
        ⟨.ok, t, e, 0#16, [hi t, lo t, 0x00#8, 0x00#8, 0x00#8, 0x03#8, u, f ||| 0x80#8, k]⟩) ∧
    (c = 0x05#8 ∨ c = 0x06#8 → Ends (exec (.mbapException u f c t e) s) s ⟨.noResponse, t, 0#16, 0#16, []⟩) ∧
    (c = 0x00#8 ∨ 0x07 ≤ c.toNat → Ends (exec (.mbapException u f c t e) s) s ⟨.badArg, 0#16, 0#16, 0#16, []⟩))

/-- R91: a complete MBAP request becomes the RTU frame of its unit id and its PDU, normalised under WRNORM (it always fits,
`RtuFromMbapNeverOverflows`); otherwise the command reports what MBAP_PARSE reports on the same input, with no output. -/
def Obligations.RtuFromMbapResult : Prop :=
  EncodingRule 0x23#8 (fun w => fieldA w = 0 ∧ fieldB w = 0 ∧ fieldC w = 0 ∧ fieldD w = 0 ∧ fieldE w = 0)
    (fun _ => .rtuFromMbap) ∧
  BadArgPastBuffer .rtuFromMbap ∧
  (∀ (s m : State) (inp : List Byte), InputIs s inp → exec .mbapParse s = .next m →
    (m.status ≠ .ok → Ends (exec .rtuFromMbap s) s ⟨m.status, m.res0, m.res1, 0#16, []⟩) ∧
    (∀ (p q body : List Byte), m.status = .ok → outputBytes m = some p →
      (s.cfgCtrl.getLsbD 0 = true → p.length = 5 → byteAt p 0 = 0x06#8 →
        q = [0x10#8, byteAt p 1, byteAt p 2, 0x00#8, 0x01#8, 0x02#8, byteAt p 3, byteAt p 4]) →
      (s.cfgCtrl.getLsbD 0 = false ∨ p.length ≠ 5 ∨ byteAt p 0 ≠ 0x06#8 → q = p) →
      body = byteAt inp 6 :: q →
      Ends (exec .rtuFromMbap s) s ⟨.ok, m.res0, m.res1, be16 (byteAt p 0) (byteAt inp 6),
        body ++ [lo (crc16Of body), hi (crc16Of body)]⟩))

/-- R91: OVERFLOW cannot occur in RTU_FROM_MBAP. The rule says so while MBAP_LEN_MAX is legal; since the request itself
fits in the buffer (R61), it holds of every state. -/
def Obligations.RtuFromMbapNeverOverflows : Prop :=
  ∀ s t : State, exec .rtuFromMbap s = .next t → t.status ≠ .overflow

/-- R92: what the client is sent for each verdict of RTU_DECODE on the same input: the device's PDU re-wrapped, the device's
exception code, or the gateway exception 0x0B; always with the request's unit, function code and transaction id. -/
def Obligations.MbapFromRtuResult : Prop :=
  EncodingRule 0x24#8 (fun w => fieldC w = 0 ∧ fieldE w = 0)
    (fun w => .mbapFromRtu (fieldA w) (fieldB w) (fieldD w)) ∧
  (∀ a b d, BadArgPastBuffer (.mbapFromRtu a b d)) ∧
  (∀ (s m : State) (u f : Byte) (tid : Word) (inp : List Byte), InputIs s inp → exec .rtuDecode s = .next m →
    (∀ (p : List Byte) (len : Word), m.status = .ok → outputBytes m = some p → len = word (1 + p.length) →
      (bufCap s < p.length + 7 → Ends (exec (.mbapFromRtu u f tid) s) s ⟨.overflow, tid, 0#16, 0#16, []⟩) ∧
      (p.length + 7 ≤ bufCap s →
        Ends (exec (.mbapFromRtu u f tid) s) s
          ⟨.ok, tid, len, 0#16, [hi tid, lo tid, 0x00#8, 0x00#8, hi len, lo len, u] ++ p⟩)) ∧
    (m.status = .exceptionFrame →
      Ends (exec (.mbapFromRtu u f tid) s) s ⟨.exceptionFrame, tid, zext (byteAt inp 2), 0#16,
        [hi tid, lo tid, 0x00#8, 0x00#8, 0x00#8, 0x03#8, u, f ||| 0x80#8, byteAt inp 2]⟩) ∧
    (m.status = .crcMismatch ∨ m.status = .tooShort →
      Ends (exec (.mbapFromRtu u f tid) s) s ⟨m.status, tid, 0x000B#16, 0#16,
        [hi tid, lo tid, 0x00#8, 0x00#8, 0x00#8, 0x03#8, u, f ||| 0x80#8, 0x0B#8]⟩) ∧
    (m.status = .ok ∨ m.status = .exceptionFrame ∨ m.status = .crcMismatch ∨ m.status = .tooShort))

/-- R93: MBAP_BUILD with the parsed unit and transaction id on the parsed PDU gives back the consumed bytes exactly. -/
def Obligations.MbapRoundTrip : Prop :=
  ∀ (s t u : State) (inp p : List Byte), InputIs s inp → exec .mbapParse s = .next t → t.status = .ok →
    outputBytes t = some p → InputIs u p → u.cfgBufCap = s.cfgBufCap →
    ∃ v, exec (.mbapBuild (t.res2.setWidth 8) t.res0) u = .next v ∧ v.status = .ok ∧
      outputBytes v = some (inp.take t.res1.toNat)

/-- R94: every frame that MBAP_BUILD, MBAP_EXCEPTION or MBAP_FROM_RTU emits begins with the transaction id it was given,
high byte first. -/
def Obligations.TransactionIdIsEchoed : Prop :=
  ∀ (i : Instr) (tid : Word) (s t : State),
    ((∃ u, i = .mbapBuild u tid) ∨ (∃ u f c e, i = .mbapException u f c tid e) ∨ (∃ u f, i = .mbapFromRtu u f tid)) →
    exec i s = .next t →
    ∃ out, outputBytes t = some out ∧ (out ≠ [] → out.take 2 = [hi tid, lo tid] ∧ t.res0 = tid)

/-! ## Control -/

/-- R101. -/
def Obligations.NopResult : Prop :=
  EncodingRule 0x00#8 (fun w => fieldA w = 0 ∧ fieldB w = 0 ∧ fieldC w = 0 ∧ fieldD w = 0 ∧ fieldE w = 0)
    (fun _ => .nop) ∧
  ∀ s : State, Ends (exec .nop s) s ⟨.ok, 0#16, 0#16, 0#16, []⟩

/-- R102 with R100. -/
def Obligations.SetCfgResult : Prop :=
  EncodingRule 0x30#8 (fun w => fieldB w = 0 ∧ fieldC w = 0 ∧ fieldE w = 0)
    (fun w => .setCfg (fieldA w) (fieldD w)) ∧
  (∀ (s : State) (v : Word),
    (v.toNat ≤ 1 → Ends (exec (.setCfg 0x00#8 v) s) { s with cfgCtrl := v } ⟨.ok, v, 0#16, 0#16, []⟩) ∧
    (1 < v.toNat → Ends (exec (.setCfg 0x00#8 v) s) s ⟨.badArg, 0#16, 0#16, 0#16, []⟩) ∧
    (2 ≤ v.toNat → v.toNat ≤ bufCap s - 6 →
      Ends (exec (.setCfg 0x01#8 v) s) { s with cfgMbapLenMax := v } ⟨.ok, v, 0#16, 0#16, []⟩) ∧
    (v.toNat < 2 ∨ bufCap s - 6 < v.toNat → Ends (exec (.setCfg 0x01#8 v) s) s ⟨.badArg, 0#16, 0#16, 0#16, []⟩) ∧
    (∀ a : Byte, 0x02 ≤ a.toNat → Ends (exec (.setCfg a v) s) s ⟨.badArg, 0#16, 0#16, 0#16, []⟩))

/-- R103 with R100; CTRL reads with bits 15:1 = 0. -/
def Obligations.GetCfgResult : Prop :=
  EncodingRule 0x31#8 (fun w => fieldB w = 0 ∧ fieldC w = 0 ∧ fieldD w = 0 ∧ fieldE w = 0)
    (fun w => .getCfg (fieldA w)) ∧
  (∀ s : State,
    (∃ v : Word, v.getLsbD 0 = s.cfgCtrl.getLsbD 0 ∧ v.toNat ≤ 1 ∧
      Ends (exec (.getCfg 0x00#8) s) s ⟨.ok, v, 0#16, 0#16, []⟩) ∧
    Ends (exec (.getCfg 0x01#8) s) s ⟨.ok, s.cfgMbapLenMax, 0#16, 0#16, []⟩ ∧
    Ends (exec (.getCfg 0x02#8) s) s ⟨.ok, s.cfgBufCap, 0#16, 0#16, []⟩ ∧
    (∀ a : Byte, 0x03 ≤ a.toNat → Ends (exec (.getCfg a) s) s ⟨.badArg, 0#16, 0#16, 0#16, []⟩))

/-- R104: CRC and the configuration at their reset values, ILEN and IBUF as they were. -/
def Obligations.SoftResetResult : Prop :=
  EncodingRule 0x7F#8 (fun w => fieldA w = 0 ∧ fieldB w = 0 ∧ fieldC w = 0 ∧ fieldD w = 0 ∧ fieldE w = 0)
    (fun _ => .softReset) ∧
  ∀ s : State, ∃ m : Word, m.toNat = min 254 (bufCap s - 6) ∧
    Ends (exec .softReset s) { s with crc := 0xFFFF#16, cfgCtrl := 0x0001#16, cfgMbapLenMax := m }
      ⟨.ok, 0#16, 0#16, 0#16, []⟩

/-- R116: SOFT_RESET and power-on reset leave the same registers and differ only in the input side: SOFT_RESET keeps ILEN
and IBUF, power-on reset sets ILEN to 0 and makes every IBUF byte unwritten. -/
def Obligations.TheTwoResetsDifferOnlyInTheInput : Prop :=
  ∀ s : State, ∃ t u, exec .softReset s = .next t ∧ perform .reset s = .next u ∧
    t.crc = u.crc ∧ t.status = u.status ∧ t.res0 = u.res0 ∧ t.res1 = u.res1 ∧ t.res2 = u.res2 ∧ t.olen = u.olen ∧
    t.cfgCtrl = u.cfgCtrl ∧ t.cfgMbapLenMax = u.cfgMbapLenMax ∧ t.cfgBufCap = u.cfgBufCap ∧
    (∀ i, obufByte i t = obufByte i u) ∧
    t.ilen = s.ilen ∧ t.ibuf = s.ibuf ∧ u.ilen = 0#16 ∧ ∀ i, memRead u.ibuf i = none
end

