-- ==== Sys2Proof/Laws/Decode.lean ====
section
/-! SUPPORT. Laws/Decode.lean: the fields of a command word, and its reserved bits. -/

namespace Sys2Proof

/-! ## The fields of `commandWord` -/

/-- Bit by bit, a command word is its six fields (rule R46). -/
theorem getLsbD_commandWord (op a b c : Byte) (d e : Word) (i : Nat) :
    (commandWord op a b c d e).getLsbD i =
      if i < 8 then op.getLsbD i
      else if i < 16 then a.getLsbD (i - 8)
      else if i < 24 then b.getLsbD (i - 16)
      else if i < 32 then c.getLsbD (i - 24)
      else if i < 48 then d.getLsbD (i - 32)
      else e.getLsbD (i - 48) := by
  have h : (commandWord op a b c d e).getLsbD i =
      BitVec.getLsbD (w := 16 + 16 + 8 + 8 + 8 + 8) (e ++ d ++ c ++ b ++ a ++ op) i := rfl
  rw [h]
  simp only [BitVec.getLsbD_append]
  grind

@[simp] theorem fieldOp_commandWord (op a b c : Byte) (d e : Word) : fieldOp (commandWord op a b c d e) = op := by
  apply BitVec.eq_of_getLsbD_eq
  intro i hi
  simp only [fieldOp, BitVec.getLsbD_extractLsb', getLsbD_commandWord]
  grind

@[simp] theorem fieldA_commandWord (op a b c : Byte) (d e : Word) : fieldA (commandWord op a b c d e) = a := by
  apply BitVec.eq_of_getLsbD_eq
  intro i hi
  simp only [fieldA, BitVec.getLsbD_extractLsb', getLsbD_commandWord]
  grind

@[simp] theorem fieldB_commandWord (op a b c : Byte) (d e : Word) : fieldB (commandWord op a b c d e) = b := by
  apply BitVec.eq_of_getLsbD_eq
  intro i hi
  simp only [fieldB, BitVec.getLsbD_extractLsb', getLsbD_commandWord]
  grind

@[simp] theorem fieldC_commandWord (op a b c : Byte) (d e : Word) : fieldC (commandWord op a b c d e) = c := by
  apply BitVec.eq_of_getLsbD_eq
  intro i hi
  simp only [fieldC, BitVec.getLsbD_extractLsb', getLsbD_commandWord]
  grind

@[simp] theorem fieldD_commandWord (op a b c : Byte) (d e : Word) : fieldD (commandWord op a b c d e) = d := by
  apply BitVec.eq_of_getLsbD_eq
  intro i hi
  simp only [fieldD, BitVec.getLsbD_extractLsb', getLsbD_commandWord]
  grind

@[simp] theorem fieldE_commandWord (op a b c : Byte) (d e : Word) : fieldE (commandWord op a b c d e) = e := by
  apply BitVec.eq_of_getLsbD_eq
  intro i hi
  simp only [fieldE, BitVec.getLsbD_extractLsb', getLsbD_commandWord]
  grind

/-- Every word is the word of its fields: no bit lies outside them. -/
theorem commandWord_fields (w : CommandWord) :
    commandWord (fieldOp w) (fieldA w) (fieldB w) (fieldC w) (fieldD w) (fieldE w) = w := by
  apply BitVec.eq_of_getLsbD_eq
  intro i hi
  simp only [getLsbD_commandWord, fieldOp, fieldA, fieldB, fieldC, fieldD, fieldE, BitVec.getLsbD_extractLsb']
  grind

/-- The fields determine the word. -/
theorem commandWord_inj {op a b c op' a' b' c' : Byte} {d e d' e' : Word} :
    commandWord op a b c d e = commandWord op' a' b' c' d' e' ↔
      op = op' ∧ a = a' ∧ b = b' ∧ c = c' ∧ d = d' ∧ e = e' := by
  constructor
  · intro h
    exact ⟨by simpa using congrArg fieldOp h, by simpa using congrArg fieldA h, by simpa using congrArg fieldB h,
      by simpa using congrArg fieldC h, by simpa using congrArg fieldD h, by simpa using congrArg fieldE h⟩
  · rintro ⟨rfl, rfl, rfl, rfl, rfl, rfl⟩
    rfl

/-- Masking goes field by field. -/
theorem commandWord_and (op a b c op' a' b' c' : Byte) (d e d' e' : Word) :
    commandWord op a b c d e &&& commandWord op' a' b' c' d' e' =
      commandWord (op &&& op') (a &&& a') (b &&& b') (c &&& c') (d &&& d') (e &&& e') := by
  apply BitVec.eq_of_getLsbD_eq
  intro i hi
  simp only [BitVec.getLsbD_and, getLsbD_commandWord]
  grind

/-! ## The mask and the match of an opcode, field by field -/

/-- A mask whose operand fields are all ones or all zeros. -/
theorem opcodeMask_fields (o : Opcode) :
    opcodeMask o = commandWord 0xFF#8 (fieldA (opcodeMask o)) (fieldB (opcodeMask o)) (fieldC (opcodeMask o))
      (fieldD (opcodeMask o)) (fieldE (opcodeMask o)) := by
  cases o <;> decide

theorem opcodeMatch_fields (o : Opcode) :
    opcodeMatch o = commandWord (opcodeByte o) 0#8 0#8 0#8 0#16 0#16 := by
  cases o <;> decide

/-- A word passes an opcode's mask exactly when its OP is the opcode's and every masked operand bit is 0. -/
theorem commandWord_and_mask (o : Opcode) (op a b c : Byte) (d e : Word) :
    commandWord op a b c d e &&& opcodeMask o = opcodeMatch o ↔
      op = opcodeByte o ∧ a &&& fieldA (opcodeMask o) = 0#8 ∧ b &&& fieldB (opcodeMask o) = 0#8 ∧
      c &&& fieldC (opcodeMask o) = 0#8 ∧ d &&& fieldD (opcodeMask o) = 0#16 ∧
      e &&& fieldE (opcodeMask o) = 0#16 := by
  conv => lhs; rw [opcodeMask_fields o]
  rw [commandWord_and, opcodeMatch_fields, commandWord_inj,
    show (0xFF#8 : Byte) = BitVec.allOnes 8 from rfl, BitVec.and_allOnes]

theorem opcodeOf_opcodeByte (o : Opcode) : opcodeOf (opcodeByte o) = some o := by
  cases o <;> decide

theorem opcodeOf_eq_some {op : Byte} {o : Opcode} (h : opcodeOf op = some o) : op = opcodeByte o :=
  (eq_of_beq (List.find?_some (p := fun o => opcodeByte o == op) h)).symm

/-- What the decoder says of a word whose OP is an opcode's. -/
theorem decode_commandWord (o : Opcode) (a b c : Byte) (d e : Word) :
    decode (commandWord (opcodeByte o) a b c d e) =
      if commandWord (opcodeByte o) a b c d e &&& opcodeMask o = opcodeMatch o then .ok (instrOf o a b c d e)
      else .error .reservedField := by
  unfold decode
  rw [fieldOp_commandWord, opcodeOf_opcodeByte, fieldA_commandWord, fieldB_commandWord, fieldC_commandWord,
    fieldD_commandWord, fieldE_commandWord]

end Sys2Proof
end

