-- ==== Sys2Proof/Laws/Assembler.lean ====
section
/-! SUPPORT. Laws/Assembler.lean: what one operand of an assembler statement adds to the command word. -/

namespace Sys2Proof.Machine

theorem name_of_mem_asmOperand {w : Nat} {n : String} {v : Option (BitVec w)} {p : String × AsmValue}
    (h : p ∈ asmOperand n v) : p.1 = n := by
  cases v with
  | none => cases h
  | some x => rw [List.mem_singleton.1 h]

@[simp] theorem asmOperands_nil (rows : List AsmOperand) : asmOperands rows [] = some 0#64 := by
  cases rows <;> rfl

/-- An operand that the statement omits is skipped: no operand of the statement has its name. -/
theorem asmOperands_omitted {n : String} {low width : Nat} {rows : List AsmOperand} {rest : List (String × AsmValue)}
    (h : ∀ p ∈ rest, p.1 ≠ n) : asmOperands ((n, low, width) :: rows) rest = asmOperands rows rest := by
  cases rest with
  | nil => simp
  | cons p rest =>
    rw [asmOperands.eq_3, if_neg (fun e => h p (List.mem_cons_self ..) e.symm)]

/-- An operand with a value that fits its field adds that value in its place. -/
theorem asmOperands_given {n : String} {low width x : Nat} {rows : List AsmOperand} {rest : List (String × AsmValue)}
    {v : AsmValue} (hv : asmValue n v = some x) (hx : x < 2 ^ width) :
    asmOperands ((n, low, width) :: rows) ((n, v) :: rest) =
      (asmOperands rows rest).map fun y => BitVec.ofNat 64 x <<< low ||| y := by
  rw [asmOperands, if_pos rfl, hv]
  cases asmOperands rows rest with
  | none => rfl
  | some y => exact if_pos hx

/-- A number operand, given or omitted, adds its value, 0 where it is omitted (R52). -/
theorem asmOperands_operand {w low : Nat} {n : String} {rows : List AsmOperand} {rest : List (String × AsmValue)}
    (v : Option (BitVec w)) (h : ∀ p ∈ rest, p.1 ≠ n) :
    asmOperands ((n, low, w) :: rows) (asmOperand n v ++ rest) =
      (asmOperands rows rest).map fun y => (v.getD 0#w).setWidth 64 <<< low ||| y := by
  cases v with
  | none =>
    rw [asmOperand, List.nil_append, asmOperands_omitted h]
    cases asmOperands rows rest <;> simp
  | some x =>
    rw [asmOperand, List.singleton_append, asmOperands_given rfl x.isLt]
    rw [BitVec.ofNat_toNat]
    rfl

/-- The last operand of a statement. -/
theorem asmOperands_last {w low : Nat} {n : String} {rows : List AsmOperand} (v : Option (BitVec w)) :
    asmOperands ((n, low, w) :: rows) (asmOperand n v) = some ((v.getD 0#w).setWidth 64 <<< low) := by
  have h := asmOperands_operand (n := n) (low := low) (rows := rows) (rest := []) v (fun p hp => by cases hp)
  rwa [List.append_nil, asmOperands_nil, Option.map_some, BitVec.or_zero] at h

/-- A statement whose operands make the word `w` assembles to the opcode's match with `w`. -/
theorem assemble_eq {m : String} {o : Opcode} {rows : List AsmOperand} {given : List (String × AsmValue)} {w : CommandWord}
    (h : asmRow m = some (o, rows)) (hw : asmOperands rows given = some w) :
    assemble m given = some (opcodeMatch o ||| w) := by
  simp only [assemble, h, hw, Option.map_some]

/-- The command word as the fields put in their places. -/
theorem commandWord_eq_or (op a b c : Byte) (d e : Word) :
    commandWord op a b c d e =
      op.setWidth 64 ||| (a.setWidth 64 <<< 8 ||| (b.setWidth 64 <<< 16 ||| (c.setWidth 64 <<< 24 |||
        (d.setWidth 64 <<< 32 ||| e.setWidth 64 <<< 48)))) := by
  apply BitVec.eq_of_getLsbD_eq
  intro i hi
  simp only [getLsbD_commandWord, BitVec.getLsbD_or, BitVec.getLsbD_shiftLeft, BitVec.getLsbD_setWidth]
  grind

end Sys2Proof.Machine
end

