-- ==== Sys2Proof/Laws/Memory.lean ====
section
/-! SUPPORT. Laws/Memory.lean: what the buffers' operations do: reading after writing, and that every operation
keeps the canonical form. -/

namespace Sys2Proof.Machine

/-! ## Reading after writing -/

theorem memRead_memWrite_same (m : Memory) (a : Nat) (b : Byte) : memRead (memWrite m a b) a = some b := by
  induction m with
  | nil => simp [memWrite, memRead]
  | cons c rest ih =>
    obtain ⟨k, v⟩ := c
    simp only [memWrite]
    split
    · simp [memRead]
    · split
      · simp [memRead]
      · rename_i h
        simp [memRead, Ne.symm h, ih]

theorem memRead_memWrite_other (m : Memory) (a a' : Nat) (b : Byte) (h : a' ≠ a) :
    memRead (memWrite m a b) a' = memRead m a' := by
  induction m with
  | nil => simp [memWrite, memRead, Ne.symm h]
  | cons c rest ih =>
    obtain ⟨k, v⟩ := c
    simp only [memWrite]
    split
    · simp [memRead, Ne.symm h]
    · split
      · rename_i hk
        subst hk
        simp [memRead, Ne.symm h]
      · simp [memRead, ih]

theorem memRead_memWriteRange_outside (m : Memory) (a a' : Nat) (bs : List Byte)
    (h : a' < a ∨ a + bs.length ≤ a') : memRead (memWriteRange m a bs) a' = memRead m a' := by
  induction bs generalizing m a with
  | nil => rfl
  | cons b bs ih =>
    simp only [List.length_cons] at h
    rw [memWriteRange, ih _ _ (by omega), memRead_memWrite_other _ _ _ _ (by omega)]

theorem memRead_memWriteRange_inside (m : Memory) (a i : Nat) (bs : List Byte) (h : i < bs.length) :
    memRead (memWriteRange m a bs) (a + i) = some bs[i] := by
  induction bs generalizing m a i with
  | nil => simp at h
  | cons b bs ih =>
    rw [memWriteRange]
    cases i with
    | zero =>
      rw [memRead_memWriteRange_outside _ _ _ _ (by omega)]
      simpa using memRead_memWrite_same m a b
    | succ i =>
      have := ih (memWrite m a b) (a + 1) i (by simpa using h)
      rw [show a + (i + 1) = a + 1 + i by omega, this]
      rfl

/-! ## Runs of bytes -/

theorem memReadRange_eq_some_iff (m : Memory) (a : Nat) (bs : List Byte) :
    ∀ n, memReadRange m a n = some bs ↔ bs.length = n ∧ ∀ i (h : i < bs.length), memRead m (a + i) = some bs[i] := by
  induction bs generalizing a with
  | nil =>
    intro n
    cases n with
    | zero => simp [memReadRange]
    | succ n =>
      simp only [memReadRange]
      split <;> simp
  | cons b bs ih =>
    intro n
    cases n with
    | zero => simp [memReadRange]
    | succ n =>
      have ih' := ih (a + 1) n
      simp only [memReadRange]
      constructor
      · intro h
        split at h
        · rename_i x xs hx hxs
          simp only [Option.some.injEq, List.cons.injEq] at h
          obtain ⟨rfl, rfl⟩ := h
          obtain ⟨hl, hr⟩ := ih'.1 hxs
          refine ⟨by simp [hl], ?_⟩
          intro i hi
          cases i with
          | zero => simpa using hx
          | succ i =>
            rw [show a + (i + 1) = a + 1 + i by omega]
            exact hr i (by simpa using hi)
        · cases h
      · rintro ⟨hl, hr⟩
        have h0 : memRead m a = some b := hr 0 (by simp)
        have hs : memReadRange m (a + 1) n = some bs := by
          refine ih'.2 ⟨by simpa using hl, ?_⟩
          intro i hi
          have := hr (i + 1) (by simpa using hi)
          rwa [show a + (i + 1) = a + 1 + i by omega] at this
        rw [h0, hs]

theorem memReadRange_length {m : Memory} {a n : Nat} {bs : List Byte} (h : memReadRange m a n = some bs) :
    bs.length = n :=
  ((memReadRange_eq_some_iff m a bs n).1 h).1

theorem memReadRange_isSome_iff (m : Memory) (a n : Nat) :
    (memReadRange m a n).isSome ↔ ∀ i < n, (memRead m (a + i)).isSome := by
  induction n generalizing a with
  | zero => simp [memReadRange]
  | succ n ih =>
    have hstep : (memReadRange m a (n + 1)).isSome ↔
        (memRead m a).isSome ∧ (memReadRange m (a + 1) n).isSome := by
      rw [memReadRange]
      split <;> rename_i h
      · simp_all
      · cases h1 : memRead m a <;> cases h2 : memReadRange m (a + 1) n <;> simp_all
    rw [hstep, ih]
    constructor
    · rintro ⟨h0, hr⟩ i hi
      cases i with
      | zero => simpa using h0
      | succ i =>
        rw [show a + (i + 1) = a + 1 + i by omega]
        exact hr i (by omega)
    · intro h
      refine ⟨by simpa using h 0 (by omega), ?_⟩
      intro i hi
      have := h (i + 1) (by omega)
      rwa [show a + (i + 1) = a + 1 + i by omega] at this

/-- What was written reads back whole. -/
theorem memReadRange_memWriteRange (m : Memory) (a : Nat) (bs : List Byte) :
    memReadRange (memWriteRange m a bs) a bs.length = some bs :=
  (memReadRange_eq_some_iff _ _ _ _).2 ⟨rfl, fun i h => memRead_memWriteRange_inside m a i bs h⟩

/-! ## The canonical form -/

theorem memWrite_addresses (m : Memory) (a : Nat) (b : Byte) :
    ∀ c ∈ memWrite m a b, c.1 = a ∨ c ∈ m := by
  induction m with
  | nil => simp [memWrite]
  | cons c rest ih =>
    obtain ⟨k, v⟩ := c
    simp only [memWrite]
    split
    · intro c hc
      rcases List.mem_cons.1 hc with rfl | hc
      · exact .inl rfl
      · exact .inr hc
    · split
      · intro c hc
        rcases List.mem_cons.1 hc with rfl | hc
        · exact .inl rfl
        · exact .inr (List.mem_cons_of_mem _ hc)
      · intro c hc
        rcases List.mem_cons.1 hc with rfl | hc
        · exact .inr (List.mem_cons_self ..)
        · exact (ih c hc).imp id (List.mem_cons_of_mem _)

theorem memWrite_wf (m : Memory) (a : Nat) (b : Byte) (h : Memory.wf m) : Memory.wf (memWrite m a b) := by
  induction m with
  | nil => simp [memWrite, Memory.wf]
  | cons c rest ih =>
    obtain ⟨k, v⟩ := c
    have hrest : Memory.wf rest := (List.pairwise_cons.1 h).2
    have hk : ∀ c ∈ rest, k < c.1 := (List.pairwise_cons.1 h).1
    simp only [memWrite]
    split
    · rename_i hlt
      refine List.pairwise_cons.2 ⟨?_, h⟩
      intro c hc
      rcases List.mem_cons.1 hc with rfl | hc
      · exact hlt
      · exact Nat.lt_trans hlt (hk c hc)
    · split
      · rename_i heq
        subst heq
        exact List.pairwise_cons.2 ⟨hk, hrest⟩
      · rename_i h1 h2
        refine List.pairwise_cons.2 ⟨?_, ih hrest⟩
        intro c hc
        rcases memWrite_addresses rest a b c hc with hc | hc
        · simp only [hc]
          omega
        · exact hk c hc

theorem memWriteRange_wf (m : Memory) (a : Nat) (bs : List Byte) (h : Memory.wf m) :
    Memory.wf (memWriteRange m a bs) := by
  induction bs generalizing m a with
  | nil => exact h
  | cons b bs ih => exact ih _ _ (memWrite_wf m a b h)

/-- Writing below a bound keeps every listed address below it. -/
theorem memWrite_below (m : Memory) (a n : Nat) (b : Byte) (ha : a < n) (h : ∀ c ∈ m, c.1 < n) :
    ∀ c ∈ memWrite m a b, c.1 < n := by
  intro c hc
  rcases memWrite_addresses m a b c hc with hc | hc
  · omega
  · exact h c hc

theorem memWriteRange_below (m : Memory) (a n : Nat) (bs : List Byte) (ha : a + bs.length ≤ n)
    (h : ∀ c ∈ m, c.1 < n) : ∀ c ∈ memWriteRange m a bs, c.1 < n := by
  induction bs generalizing m a with
  | nil => exact h
  | cons b bs ih =>
    simp only [List.length_cons] at ha
    exact ih _ _ (by omega) (memWrite_below m a n b (by omega) h)

/-- The buffers right after reset are in canonical form. -/
theorem reset_memory_wf : Memory.wf State.reset.ibuf ∧ Memory.wf State.reset.obuf := ⟨List.Pairwise.nil, List.Pairwise.nil⟩

end Sys2Proof.Machine
end

