-- ==== Sys2Proof/Laws/State.lean ====
section
/-! SUPPORT. Laws/State.lean: one lemma per field per update of State. -/

namespace Sys2Proof.Machine

@[simp] theorem finish_crc (c : Completion) (s : State) : (finish c s).crc = s.crc := rfl
@[simp] theorem finish_status (c : Completion) (s : State) : (finish c s).status = c.status := rfl
@[simp] theorem finish_res0 (c : Completion) (s : State) : (finish c s).res0 = c.res0 := rfl
@[simp] theorem finish_res1 (c : Completion) (s : State) : (finish c s).res1 = c.res1 := rfl
@[simp] theorem finish_res2 (c : Completion) (s : State) : (finish c s).res2 = c.res2 := rfl
@[simp] theorem finish_ilen (c : Completion) (s : State) : (finish c s).ilen = s.ilen := rfl
@[simp] theorem finish_olen (c : Completion) (s : State) : (finish c s).olen = BitVec.ofNat 16 c.out.length := rfl
@[simp] theorem finish_ibuf (c : Completion) (s : State) : (finish c s).ibuf = s.ibuf := rfl
@[simp] theorem finish_obuf (c : Completion) (s : State) : (finish c s).obuf = memWriteRange s.obuf 0 c.out := rfl
@[simp] theorem finish_cfgCtrl (c : Completion) (s : State) : (finish c s).cfgCtrl = s.cfgCtrl := rfl
@[simp] theorem finish_cfgMbapLenMax (c : Completion) (s : State) : (finish c s).cfgMbapLenMax = s.cfgMbapLenMax := rfl
@[simp] theorem finish_cfgBufCap (c : Completion) (s : State) : (finish c s).cfgBufCap = s.cfgBufCap := rfl
@[simp] theorem finish_hostQueue (c : Completion) (s : State) : (finish c s).hostQueue = s.hostQueue := rfl
@[simp] theorem finish_readData (c : Completion) (s : State) : (finish c s).readData = s.readData := rfl
@[simp] theorem finish_draws (c : Completion) (s : State) : (finish c s).draws = s.draws := rfl

@[simp] theorem setCrc_crc (v : Word) (s : State) : (setCrc v s).crc = v := rfl
@[simp] theorem setCrc_status (v : Word) (s : State) : (setCrc v s).status = s.status := rfl
@[simp] theorem setCrc_res0 (v : Word) (s : State) : (setCrc v s).res0 = s.res0 := rfl
@[simp] theorem setCrc_res1 (v : Word) (s : State) : (setCrc v s).res1 = s.res1 := rfl
@[simp] theorem setCrc_res2 (v : Word) (s : State) : (setCrc v s).res2 = s.res2 := rfl
@[simp] theorem setCrc_ilen (v : Word) (s : State) : (setCrc v s).ilen = s.ilen := rfl
@[simp] theorem setCrc_olen (v : Word) (s : State) : (setCrc v s).olen = s.olen := rfl
@[simp] theorem setCrc_ibuf (v : Word) (s : State) : (setCrc v s).ibuf = s.ibuf := rfl
@[simp] theorem setCrc_obuf (v : Word) (s : State) : (setCrc v s).obuf = s.obuf := rfl
@[simp] theorem setCrc_cfgCtrl (v : Word) (s : State) : (setCrc v s).cfgCtrl = s.cfgCtrl := rfl
@[simp] theorem setCrc_cfgMbapLenMax (v : Word) (s : State) : (setCrc v s).cfgMbapLenMax = s.cfgMbapLenMax := rfl
@[simp] theorem setCrc_cfgBufCap (v : Word) (s : State) : (setCrc v s).cfgBufCap = s.cfgBufCap := rfl
@[simp] theorem setCrc_hostQueue (v : Word) (s : State) : (setCrc v s).hostQueue = s.hostQueue := rfl
@[simp] theorem setCrc_readData (v : Word) (s : State) : (setCrc v s).readData = s.readData := rfl
@[simp] theorem setCrc_draws (v : Word) (s : State) : (setCrc v s).draws = s.draws := rfl

@[simp] theorem setCtrl_crc (v : Word) (s : State) : (setCtrl v s).crc = s.crc := rfl
@[simp] theorem setCtrl_status (v : Word) (s : State) : (setCtrl v s).status = s.status := rfl
@[simp] theorem setCtrl_res0 (v : Word) (s : State) : (setCtrl v s).res0 = s.res0 := rfl
@[simp] theorem setCtrl_res1 (v : Word) (s : State) : (setCtrl v s).res1 = s.res1 := rfl
@[simp] theorem setCtrl_res2 (v : Word) (s : State) : (setCtrl v s).res2 = s.res2 := rfl
@[simp] theorem setCtrl_ilen (v : Word) (s : State) : (setCtrl v s).ilen = s.ilen := rfl
@[simp] theorem setCtrl_olen (v : Word) (s : State) : (setCtrl v s).olen = s.olen := rfl
@[simp] theorem setCtrl_ibuf (v : Word) (s : State) : (setCtrl v s).ibuf = s.ibuf := rfl
@[simp] theorem setCtrl_obuf (v : Word) (s : State) : (setCtrl v s).obuf = s.obuf := rfl
@[simp] theorem setCtrl_cfgCtrl (v : Word) (s : State) : (setCtrl v s).cfgCtrl = v := rfl
@[simp] theorem setCtrl_cfgMbapLenMax (v : Word) (s : State) : (setCtrl v s).cfgMbapLenMax = s.cfgMbapLenMax := rfl
@[simp] theorem setCtrl_cfgBufCap (v : Word) (s : State) : (setCtrl v s).cfgBufCap = s.cfgBufCap := rfl
@[simp] theorem setCtrl_hostQueue (v : Word) (s : State) : (setCtrl v s).hostQueue = s.hostQueue := rfl
@[simp] theorem setCtrl_readData (v : Word) (s : State) : (setCtrl v s).readData = s.readData := rfl
@[simp] theorem setCtrl_draws (v : Word) (s : State) : (setCtrl v s).draws = s.draws := rfl

@[simp] theorem setMbapLenMax_crc (v : Word) (s : State) : (setMbapLenMax v s).crc = s.crc := rfl
@[simp] theorem setMbapLenMax_status (v : Word) (s : State) : (setMbapLenMax v s).status = s.status := rfl
@[simp] theorem setMbapLenMax_res0 (v : Word) (s : State) : (setMbapLenMax v s).res0 = s.res0 := rfl
@[simp] theorem setMbapLenMax_res1 (v : Word) (s : State) : (setMbapLenMax v s).res1 = s.res1 := rfl
@[simp] theorem setMbapLenMax_res2 (v : Word) (s : State) : (setMbapLenMax v s).res2 = s.res2 := rfl
@[simp] theorem setMbapLenMax_ilen (v : Word) (s : State) : (setMbapLenMax v s).ilen = s.ilen := rfl
@[simp] theorem setMbapLenMax_olen (v : Word) (s : State) : (setMbapLenMax v s).olen = s.olen := rfl
@[simp] theorem setMbapLenMax_ibuf (v : Word) (s : State) : (setMbapLenMax v s).ibuf = s.ibuf := rfl
@[simp] theorem setMbapLenMax_obuf (v : Word) (s : State) : (setMbapLenMax v s).obuf = s.obuf := rfl
@[simp] theorem setMbapLenMax_cfgCtrl (v : Word) (s : State) : (setMbapLenMax v s).cfgCtrl = s.cfgCtrl := rfl
@[simp] theorem setMbapLenMax_cfgMbapLenMax (v : Word) (s : State) : (setMbapLenMax v s).cfgMbapLenMax = v := rfl
@[simp] theorem setMbapLenMax_cfgBufCap (v : Word) (s : State) : (setMbapLenMax v s).cfgBufCap = s.cfgBufCap := rfl
@[simp] theorem setMbapLenMax_hostQueue (v : Word) (s : State) : (setMbapLenMax v s).hostQueue = s.hostQueue := rfl
@[simp] theorem setMbapLenMax_readData (v : Word) (s : State) : (setMbapLenMax v s).readData = s.readData := rfl
@[simp] theorem setMbapLenMax_draws (v : Word) (s : State) : (setMbapLenMax v s).draws = s.draws := rfl

@[simp] theorem finish_bufCap (c : Completion) (s : State) : bufCap (finish c s) = bufCap s := rfl
@[simp] theorem finish_inputBytes (c : Completion) (s : State) : inputBytes (finish c s) = inputBytes s := rfl
@[simp] theorem setCrc_bufCap (v : Word) (s : State) : bufCap (setCrc v s) = bufCap s := rfl
@[simp] theorem setCrc_inputBytes (v : Word) (s : State) : inputBytes (setCrc v s) = inputBytes s := rfl
@[simp] theorem setCtrl_bufCap (v : Word) (s : State) : bufCap (setCtrl v s) = bufCap s := rfl
@[simp] theorem setCtrl_inputBytes (v : Word) (s : State) : inputBytes (setCtrl v s) = inputBytes s := rfl
@[simp] theorem setMbapLenMax_bufCap (v : Word) (s : State) : bufCap (setMbapLenMax v s) = bufCap s := rfl
@[simp] theorem setMbapLenMax_inputBytes (v : Word) (s : State) : inputBytes (setMbapLenMax v s) = inputBytes s := rfl

@[simp] theorem setQueue_bufCap (s : State) (q : List HostAction) : bufCap { s with hostQueue := q } = bufCap s := rfl
@[simp] theorem setQueue_inputBytes (s : State) (q : List HostAction) :
    inputBytes { s with hostQueue := q } = inputBytes s := rfl

/-! The completions that `raise` makes. -/

@[simp] theorem raised_status (st : Status) : (raised st).status = st := rfl
@[simp] theorem raised_res0 (st : Status) : (raised st).res0 = 0#16 := rfl
@[simp] theorem raised_res1 (st : Status) : (raised st).res1 = 0#16 := rfl
@[simp] theorem raised_res2 (st : Status) : (raised st).res2 = 0#16 := rfl
@[simp] theorem raised_out (st : Status) : (raised st).out = [] := rfl
@[simp] theorem raisedWith_status (st : Status) (a b c : Word) : (raisedWith st a b c).status = st := rfl
@[simp] theorem raisedWith_res0 (st : Status) (a b c : Word) : (raisedWith st a b c).res0 = a := rfl
@[simp] theorem raisedWith_res1 (st : Status) (a b c : Word) : (raisedWith st a b c).res1 = b := rfl
@[simp] theorem raisedWith_res2 (st : Status) (a b c : Word) : (raisedWith st a b c).res2 = c := rfl
@[simp] theorem raisedWith_out (st : Status) (a b c : Word) : (raisedWith st a b c).out = [] := rfl

/-- The two reset values of CFG.MBAP_LEN_MAX, at power-on and by SOFT_RESET, are one. -/
theorem powerOn_cfgMbapLenMax (cap : Word) : (State.powerOn cap).cfgMbapLenMax = mbapLenMaxReset cap := rfl

end Sys2Proof.Machine
end

