-- ==== Sys2Proof/Laws/Completion.lean ====
section
/-! SUPPORT. Laws/Completion.lean: what `finish` leaves in OBUF and what the input check of rule R61 can do. -/

namespace Sys2Proof.Machine

/-- After `finish` the output is what it was given. -/
theorem outputBytes_finish (c : Completion) (s : State) (h : c.out.length < 65536) :
    outputBytes (finish c s) = some c.out := by
  have hl : (BitVec.ofNat 16 c.out.length).toNat = c.out.length := by
    simp only [BitVec.toNat_ofNat]
    omega
  simp only [outputBytes, finish_obuf, finish_olen, hl]
  exact memReadRange_memWriteRange _ _ _

/-- A byte of OBUF outside the output is the byte it was. -/
theorem memRead_finish_obuf_outside (c : Completion) (s : State) (a : Nat) (h : c.out.length ≤ a) :
    memRead (finish c s).obuf a = memRead s.obuf a :=
  memRead_memWriteRange_outside _ _ _ _ (.inr (by omega))

@[simp] theorem complete_eq (c : Completion) (s : State) :
    complete c s = Host.Outcome.next (finish c s) := rfl

/-- Everything the input check can do: the command runs on its input, or it completes BAD_ARG, or it faults. -/
theorem withInput_cases (s : State) (k : List Byte → Host.Outcome State Fault Refusal) :
    (∃ inp, InputIs s inp ∧ withInput s k = k inp) ∨
    (bufCap s < s.ilen.toNat ∧ withInput s k = .next (finish (raised .badArg) s)) ∨
    (s.ilen.toNat ≤ bufCap s ∧ inputBytes s = none ∧ withInput s k = .fault .unwrittenInput) := by
  unfold withInput
  split
  · rename_i h
    exact .inr (.inl ⟨h, rfl⟩)
  · rename_i h
    cases hi : inputBytes s with
    | none => exact .inr (.inr ⟨by omega, rfl, rfl⟩)
    | some inp => exact .inl ⟨inp, ⟨by omega, hi⟩, rfl⟩

/-- A command whose input is readable runs on it. -/
theorem withInput_of_inputIs {s : State} {inp : List Byte} (h : InputIs s inp)
    (k : List Byte → Host.Outcome State Fault Refusal) : withInput s k = k inp := by
  have h1 : ¬ s.ilen.toNat > bufCap s := by have := h.1; omega
  simp only [withInput, h1, if_false, h.2]

/-- ILEN past the buffer is BAD_ARG. -/
theorem withInput_of_ilen_gt {s : State} (h : bufCap s < s.ilen.toNat)
    (k : List Byte → Host.Outcome State Fault Refusal) :
    withInput s k = .next (finish (raised .badArg) s) := by
  have h1 : s.ilen.toNat > bufCap s := h
  simp only [withInput, h1, if_true, complete_eq]

/-- An unwritten input byte is the fault UNWRITTEN_INPUT. -/
theorem withInput_of_unwritten {s : State} (h : s.ilen.toNat ≤ bufCap s) (hi : inputBytes s = none)
    (k : List Byte → Host.Outcome State Fault Refusal) : withInput s k = .fault .unwrittenInput := by
  have h1 : ¬ s.ilen.toNat > bufCap s := by omega
  simp only [withInput, h1, if_false, hi]

/-- The input is as long as ILEN says, and fits the buffer. -/
theorem InputIs.length {s : State} {inp : List Byte} (h : InputIs s inp) : inp.length = s.ilen.toNat :=
  memReadRange_length h.2

theorem InputIs.length_le {s : State} {inp : List Byte} (h : InputIs s inp) : inp.length ≤ bufCap s := by
  rw [h.length]
  exact h.1

theorem InputIs.unique {s : State} {a b : List Byte} (ha : InputIs s a) (hb : InputIs s b) : a = b :=
  Option.some.inj (ha.2.symm.trans hb.2)

theorem bufCap_lt (s : State) : bufCap s < 65536 := s.cfgBufCap.isLt

theorem InputIs.length_lt {s : State} {inp : List Byte} (h : InputIs s inp) : inp.length < 65536 :=
  Nat.lt_of_le_of_lt h.length_le (bufCap_lt s)

end Sys2Proof.Machine
end

