-- ==== Sys2Proof/Laws/Crc.lean ====
section
/-! SUPPORT. Laws/Crc.lean: the CRC's algebra: one step is one-to-one in the register and in the byte. -/

namespace Sys2Proof.Machine

@[simp] theorem crcOver_nil (c : Word) : crcOver c [] = c := rfl
@[simp] theorem crcOver_cons (c : Word) (b : Byte) (s : List Byte) :
    crcOver c (b :: s) = crcOver (crcStep c b) s := rfl
theorem crcOver_append (c : Word) (s t : List Byte) : crcOver c (s ++ t) = crcOver (crcOver c s) t := by
  simp [crcOver]

/-- The top bit of a shifted register is the bit that was shifted out (the polynomial has its top bit set). -/
theorem crcShift_top (c : Word) : (crcShift c).getLsbD 15 = c.getLsbD 0 := by
  unfold crcShift crcPoly
  split
  · rename_i h
    rw [h]
    simp
  · rename_i h
    simp only [Bool.not_eq_true] at h
    rw [h]
    simp

theorem crcShift_injective : Function.Injective crcShift := by
  intro a b h
  have h0 : a.getLsbD 0 = b.getLsbD 0 := by rw [← crcShift_top, ← crcShift_top, h]
  have hs : a >>> 1 = b >>> 1 := by
    unfold crcShift at h
    rw [h0] at h
    split at h
    · exact BitVec.xor_left_inj crcPoly |>.1 h
    · exact h
  apply BitVec.eq_of_getLsbD_eq
  intro i hi
  cases i with
  | zero => exact h0
  | succ i =>
    have := congrArg (fun v => v.getLsbD i) hs
    simpa [Nat.add_comm] using this

theorem crcShifts_injective (n : Nat) : Function.Injective (crcShifts n) := by
  induction n with
  | zero => exact fun _ _ h => h
  | succ n ih => exact fun _ _ h => crcShift_injective (ih h)

theorem zext_injective : Function.Injective zext := by
  intro a b h
  have := congrArg (BitVec.setWidth 8) h
  simpa [zext] using this

theorem crcStep_injective_register (b : Byte) : Function.Injective (fun c => crcStep c b) :=
  fun _ _ h => BitVec.xor_left_inj (zext b) |>.1 (crcShifts_injective 8 h)

theorem crcStep_injective_byte (c : Word) : Function.Injective (crcStep c) :=
  fun _ _ h => zext_injective (BitVec.xor_right_inj c |>.1 (crcShifts_injective 8 h))

theorem crcOver_injective_register (s : List Byte) : Function.Injective (fun c => crcOver c s) := by
  induction s with
  | nil => exact fun _ _ h => h
  | cons b s ih => exact fun _ _ h => crcStep_injective_register b (ih h)

end Sys2Proof.Machine
end

