-- ==== Sys2Proof/Laws/Operands.lean ====
section
/-! SUPPORT. Laws/Operands.lean: byte order and slices. -/

namespace Sys2Proof.Machine

@[simp] theorem hi_be16 (x y : Byte) : hi (be16 x y) = x := by
  unfold hi be16
  ext i hi
  simp [show ¬ 8 + i < 8 by omega, hi, show 8 + i < 16 by omega, BitVec.getLsbD_eq_getElem]

@[simp] theorem lo_be16 (x y : Byte) : lo (be16 x y) = y := by
  unfold lo be16
  ext i hi
  simp [hi, show i < 16 by omega, BitVec.getLsbD_eq_getElem]

theorem be16_hi_lo (v : Word) : be16 (hi v) (lo v) = v := by
  unfold hi lo be16
  ext i h
  by_cases h8 : i < 8
  · simp [h8, h, BitVec.getLsbD_eq_getElem]
  · simp [h8, h, show 8 + (i - 8) = i by omega, BitVec.getLsbD_eq_getElem]
    omega

theorem le16_lo_hi (v : Word) : le16 (lo v) (hi v) = v := be16_hi_lo v

theorem be16_injective {x y x' y' : Byte} (h : be16 x y = be16 x' y') : x = x' ∧ y = y' :=
  ⟨by simpa using congrArg hi h, by simpa using congrArg lo h⟩

@[simp] theorem be_length (v : Word) : (be v).length = 2 := rfl
@[simp] theorem le_length (v : Word) : (le v).length = 2 := rfl

theorem slice_length (s : List Byte) (i j : Nat) : (slice s i j).length = min j s.length - i := by
  simp [slice]

theorem word_toNat {n : Nat} (h : n < 65536) : (word n).toNat = n := by
  simp only [word, BitVec.toNat_ofNat]
  omega

@[simp] theorem withCrc_length (s : List Byte) : (withCrc s).length = s.length + 2 := by
  simp [withCrc]

theorem byteAt_eq_getElem (s : List Byte) (i : Nat) (h : i < s.length) : byteAt s i = s[i] := by
  simp [byteAt, h]

end Sys2Proof.Machine
end

