-- ==== Sys2Proof/Laws/Results.lean ====
section
/-! SUPPORT. Laws/Results.lean: what the commands' completions hold, and the two ways a command ends. -/

namespace Sys2Proof.Machine

/-! ## Ending -/

/-- A command that completes with `c` ends as `Ends` says. -/
theorem ends_complete (c : Completion) (s : State) (h : c.out.length < 65536) : Ends (complete c s) s c := by
  have hl : (BitVec.ofNat 16 c.out.length).toNat = c.out.length := by
    simp only [BitVec.toNat_ofNat]
    omega
  refine ⟨finish c s, rfl, ⟨rfl, rfl, rfl, rfl, hl, outputBytes_finish c s h⟩,
    ⟨rfl, fun _ => rfl, rfl, rfl, rfl, rfl, ?_⟩, rfl, rfl, rfl⟩
  intro a ha
  rw [finish_olen, hl] at ha
  exact memRead_finish_obuf_outside c s a ha

/-- A command that starts with the input check reports BAD_ARG on an ILEN past the buffer. -/
theorem badArgPastBuffer_of_withInput {i : Instr} (k : State → List Byte → Host.Outcome State Fault Refusal)
    (h : ∀ s, exec i s = withInput s (k s)) : BadArgPastBuffer i := by
  intro s hs
  rw [h s, withInput_of_ilen_gt hs]
  exact ends_complete _ s (by simp)

/-! ## Lengths of outputs -/

theorem slice_length_le (s : List Byte) (i j : Nat) : (slice s i j).length ≤ s.length := by
  rw [slice_length]
  omega

theorem rtuEncode_out_length (cap : Nat) (a : Byte) (inp : List Byte) : (rtuEncode cap a inp).out.length ≤ cap := by
  unfold rtuEncode
  split
  · simp
  · split
    · simp
    · simp only [withCrc_length, List.length_cons]
      omega

theorem rtuDecode_out_length (inp : List Byte) : (rtuDecode inp).out.length ≤ inp.length := by
  unfold rtuDecode
  split
  · simp
  · split
    · simp
    · split
      · split
        · simp
        · exact slice_length_le _ _ _
      · exact slice_length_le _ _ _

@[simp] theorem delimitAt_out (cap e : Nat) (inp : List Byte) : (delimitAt cap e inp).out = [] := by
  unfold delimitAt
  split
  · rfl
  · split <;> rfl

@[simp] theorem delimit_out (cap : Nat) (cls : ResponseClass) (inp : List Byte) : (delimit cap cls inp).out = [] := by
  unfold delimit
  split
  · split <;> rfl
  · cases cls
    · simp only
      split
      · rfl
      · exact delimitAt_out _ _ _
    · exact delimitAt_out _ _ _
    · rfl

theorem writeNorm_out_length (cap : Nat) (on : Bool) (inp : List Byte) : (writeNorm cap on inp).out.length ≤ cap := by
  unfold writeNorm
  split
  · simp
  · split
    · simp
    · simp only
      omega

theorem normalise_length_le (on : Bool) (p : List Byte) : (normalise on p).length ≤ max 8 p.length := by
  unfold normalise
  split
  · simp
  · omega

theorem wrRegFrame_out_length (on : Bool) (a : Byte) (d e : Word) : (wrRegFrame on a d e).out.length ≤ 11 := by
  have := normalise_length_le on (0x06#8 :: (be d ++ be e))
  simp only [wrRegFrame, withCrc_length, List.length_cons, wrRegPdu]
  simp only [List.length_cons, List.length_append, be_length] at this
  omega

theorem mbapParse_out_length (lenMax : Nat) (inp : List Byte) : (mbapParse lenMax inp).out.length ≤ inp.length := by
  unfold mbapParse
  repeat' split
  all_goals first
    | exact slice_length_le _ _ _
    | simp

@[simp] theorem mbapFrame_length (t : Word) (u : Byte) (p : List Byte) : (mbapFrame t u p).length = p.length + 7 := by
  simp [mbapFrame]
  omega

@[simp] theorem excFrame_length (t : Word) (u f k : Byte) : (excFrame t u f k).length = 9 := by
  simp [excFrame]

theorem mbapBuild_out_length (cap : Nat) (u : Byte) (t : Word) (inp : List Byte) :
    (mbapBuild cap u t inp).out.length ≤ cap := by
  unfold mbapBuild
  split
  · simp
  · split
    · simp
    · simp only [mbapFrame_length]
      omega

theorem mbapException_out_length (u f c : Byte) (t : Word) (k : Byte) : (mbapException u f c t k).out.length ≤ 9 := by
  unfold mbapException
  split
  · simp
  · split <;> simp

theorem rtuFromMbap_out_length (cap lenMax : Nat) (on : Bool) (inp : List Byte) :
    (rtuFromMbap cap lenMax on inp).out.length ≤ cap := by
  unfold rtuFromMbap
  split
  · simp
  · split
    · simp
    · simp only [withCrc_length, List.length_cons]
      omega

theorem mbapFromRtu_out_length (cap : Nat) (u f : Byte) (t : Word) (inp : List Byte) :
    (mbapFromRtu cap u f t inp).out.length ≤ max 9 cap := by
  unfold mbapFromRtu
  split
  · split
    · simp
    · simp only [mbapFrame_length]
      omega
  · split
    · simp
    · simp

/-! ## Statuses -/

theorem delimitAt_status (cap e : Nat) (inp : List Byte) :
    (delimitAt cap e inp).status ∈ [Status.ok, .needMore, .lengthUnknown, .overflow, .badArg] := by
  unfold delimitAt
  split
  · simp
  · split <;> simp

theorem delimit_status (cap : Nat) (cls : ResponseClass) (inp : List Byte) :
    (delimit cap cls inp).status ∈ [Status.ok, .needMore, .lengthUnknown, .overflow, .badArg] := by
  unfold delimit
  split
  · split <;> simp
  · cases cls
    · simp only
      split
      · simp
      · exact delimitAt_status _ _ _
    · exact delimitAt_status _ _ _
    · simp

theorem rtuDecode_status (inp : List Byte) : (rtuDecode inp).status = .ok ∨ (rtuDecode inp).status = .exceptionFrame ∨
    (rtuDecode inp).status = .crcMismatch ∨ (rtuDecode inp).status = .tooShort := by
  unfold rtuDecode
  repeat' split
  all_goals simp

theorem mbapParse_status (lenMax : Nat) (inp : List Byte) : (mbapParse lenMax inp).status = .ok ∨
    (mbapParse lenMax inp).status = .needMore ∨ (mbapParse lenMax inp).status = .malformedFrame := by
  unfold mbapParse
  repeat' split
  all_goals simp

end Sys2Proof.Machine
end

