-- ==== Sys2Proof/Laws/Exec.lean ====
section
/-! SUPPORT. Laws/Exec.lean: everything an instruction can do when it answers a next state. -/

namespace Sys2Proof.Machine

/-- `s'` is `s` but for the registers that instruction `i` may write before it finishes (R18, R62). -/
def WritesOnly (i : Instr) (s s' : State) : Prop :=
  s' = { s with crc := s'.crc, cfgCtrl := s'.cfgCtrl, cfgMbapLenMax := s'.cfgMbapLenMax } ∧
  (writesCrc i = false → s'.crc = s.crc) ∧
  (writesCfg i = false → s'.cfgCtrl = s.cfgCtrl ∧ s'.cfgMbapLenMax = s.cfgMbapLenMax) ∧
  (s'.cfgCtrl = s.cfgCtrl ∨ s'.cfgCtrl.extractLsb' 1 15 = 0#15) ∧
  (s'.cfgMbapLenMax = s.cfgMbapLenMax ∨ s'.cfgMbapLenMax = mbapLenMaxReset s.cfgBufCap ∨
    2 ≤ s'.cfgMbapLenMax.toNat ∧ s'.cfgMbapLenMax.toNat ≤ bufCap s - 6)

theorem WritesOnly.refl (i : Instr) (s : State) : WritesOnly i s s :=
  ⟨rfl, fun _ => rfl, fun _ => ⟨rfl, rfl⟩, .inl rfl, .inl rfl⟩

/-- An instruction's one completion: a state `t` reached by `finish` from `s` with at most its own registers written,
with a status that it may report and an output that fits in the buffer or in 11 bytes. -/
def ExecShape (i : Instr) (s t : State) : Prop :=
  ∃ c s', t = finish c s' ∧ WritesOnly i s s' ∧ c.status ∈ mayReport i ∧ c.out.length ≤ max 11 (bufCap s)

theorem execShape_complete {i : Instr} {s t : State} {c : Completion} (h : complete c s = .next t)
    (hs : c.status ∈ mayReport i) (hl : c.out.length ≤ max 11 (bufCap s)) : ExecShape i s t := by
  cases h
  exact ⟨c, s, rfl, WritesOnly.refl i s, hs, hl⟩

theorem execShape_completeCrc {i : Instr} {s t : State} {v : Word} {out : List Byte}
    (h : completeCrc v out s = .next t) (hi : writesCrc i = true) (hs : Status.ok ∈ mayReport i)
    (hl : out.length ≤ max 11 (bufCap s)) : ExecShape i s t := by
  cases h
  exact ⟨_, _, rfl, ⟨rfl, fun h => (by rw [hi] at h; cases h), fun _ => ⟨rfl, rfl⟩, .inl rfl, .inl rfl⟩, hs, hl⟩

theorem execShape_withInput {i : Instr} {s t : State} {k : List Byte → Host.Outcome State Fault Refusal}
    (h : withInput s k = .next t) (hb : Status.badArg ∈ mayReport i)
    (hk : ∀ inp, InputIs s inp → k inp = .next t → ExecShape i s t) : ExecShape i s t := by
  rcases withInput_cases s k with ⟨inp, hi, he⟩ | ⟨_, he⟩ | ⟨_, _, he⟩
  · exact hk inp hi (he ▸ h)
  · rw [he] at h
    exact execShape_complete (c := raised .badArg) h hb (by simp)
  · rw [he] at h
    cases h

theorem execShape_delimit {i : Instr} {s t : State} {cls : ResponseClass} (h : runDelimit cls s = .next t)
    (hm : mayReport i = [.ok, .needMore, .lengthUnknown, .overflow, .badArg]) : ExecShape i s t := by
  refine execShape_withInput h (by simp [hm]) fun inp _ hk => execShape_complete hk ?_ (by simp)
  rw [hm]
  exact delimit_status _ _ _

/-- The inversion lemma of `exec`. -/
theorem exec_next {i : Instr} {s t : State} (h : exec i s = .next t) : ExecShape i s t := by
  cases i with
  | nop => exact execShape_complete h (by simp [mayReport]) (by simp)
  | crcInit => exact execShape_completeCrc h rfl (by simp [mayReport]) (by simp)
  | crcByte b => exact execShape_completeCrc h rfl (by simp [mayReport]) (by simp)
  | crcBlock =>
    exact execShape_withInput h (by simp [mayReport]) fun inp _ hk =>
      execShape_completeCrc hk rfl (by simp [mayReport]) (by simp)
  | crcLoad v => exact execShape_completeCrc h rfl (by simp [mayReport]) (by simp)
  | crc16 =>
    exact execShape_withInput h (by simp [mayReport]) fun inp _ hk =>
      execShape_completeCrc hk rfl (by simp [mayReport]) (by simp)
  | rtuEncode a =>
    refine execShape_withInput h (by simp [mayReport]) fun inp _ hk => execShape_complete hk ?_ ?_
    · unfold rtuEncode
      repeat' split
      all_goals simp [mayReport]
    · exact Nat.le_trans (rtuEncode_out_length _ _ _) (Nat.le_max_right _ _)
  | rtuDecode =>
    refine execShape_withInput h (by simp [mayReport]) fun inp hi hk => execShape_complete hk ?_ ?_
    · rcases rtuDecode_status inp with h | h | h | h <;> simp [h, mayReport]
    · exact Nat.le_trans (rtuDecode_out_length _) (Nat.le_trans hi.length_le (Nat.le_max_right _ _))
  | rtuDelimit fc => exact execShape_delimit h rfl
  | writeNorm =>
    refine execShape_withInput h (by simp [mayReport]) fun inp _ hk => execShape_complete hk ?_ ?_
    · unfold Sys2Proof.Machine.writeNorm
      repeat' split
      all_goals simp [mayReport]
    · exact Nat.le_trans (writeNorm_out_length _ _ _) (Nat.le_max_right _ _)
  | wrRegFrame a d e =>
    exact execShape_complete h (by simp [mayReport, Sys2Proof.Machine.wrRegFrame])
      (Nat.le_trans (wrRegFrame_out_length _ _ _ _) (Nat.le_max_left _ _))
  | mbapParse =>
    refine execShape_withInput h (by simp [mayReport]) fun inp hi hk => execShape_complete hk ?_ ?_
    · rcases mbapParse_status s.cfgMbapLenMax.toNat inp with h | h | h <;> simp [h, mayReport]
    · exact Nat.le_trans (mbapParse_out_length _ _) (Nat.le_trans hi.length_le (Nat.le_max_right _ _))
  | mbapBuild u t =>
    refine execShape_withInput h (by simp [mayReport]) fun inp _ hk => execShape_complete hk ?_ ?_
    · unfold Sys2Proof.Machine.mbapBuild
      repeat' split
      all_goals simp [mayReport]
    · exact Nat.le_trans (mbapBuild_out_length _ _ _ _) (Nat.le_max_right _ _)
  | mbapException u f c t e =>
    refine execShape_complete h ?_ (Nat.le_trans (mbapException_out_length _ _ _ _ _) (by omega))
    unfold Sys2Proof.Machine.mbapException
    repeat' split
    all_goals simp [mayReport]
  | rtuFromMbap =>
    refine execShape_withInput h (by simp [mayReport]) fun inp _ hk => execShape_complete hk ?_ ?_
    · unfold Sys2Proof.Machine.rtuFromMbap
      split
      · rcases mbapParse_status s.cfgMbapLenMax.toNat inp with h | h | h <;> simp [h, mayReport]
      · split <;> simp [mayReport]
    · exact Nat.le_trans (rtuFromMbap_out_length _ _ _ _) (Nat.le_max_right _ _)
  | mbapFromRtu u f t =>
    refine execShape_withInput h (by simp [mayReport]) fun inp _ hk => execShape_complete hk ?_ ?_
    · unfold Sys2Proof.Machine.mbapFromRtu
      rcases rtuDecode_status inp with h | h | h | h
      · rw [if_pos h]
        split <;> simp [mayReport]
      all_goals simp [h, mayReport]
    · exact Nat.le_trans (mbapFromRtu_out_length _ _ _ _ _) (by omega)
  | setCfg a v =>
    simp only [exec, execSetCfg] at h
    split at h
    · split at h
      · exact execShape_complete h (by simp [mayReport]) (by simp)
      · rename_i hv
        cases h
        exact ⟨_, _, rfl, ⟨rfl, fun _ => rfl, fun h => (by cases h), .inr (Decidable.not_not.1 hv), .inl rfl⟩,
          by simp [mayReport], by simp⟩
    · split at h
      · exact execShape_complete h (by simp [mayReport]) (by simp)
      · rename_i hv
        cases h
        exact ⟨_, _, rfl, ⟨rfl, fun _ => rfl, fun h => (by cases h), .inl rfl, .inr (.inr (by
          show 2 ≤ v.toNat ∧ v.toNat ≤ bufCap s - 6
          omega))⟩, by simp [mayReport], by simp⟩
    · exact execShape_complete h (by simp [mayReport]) (by simp)
    · exact execShape_complete h (by simp [mayReport]) (by simp)
  | getCfg a =>
    simp only [exec, execGetCfg] at h
    split at h <;> exact execShape_complete h (by simp [mayReport]) (by simp)
  | softReset =>
    cases h
    exact ⟨_, _, rfl, ⟨rfl, fun h => (by cases h), fun h => (by cases h), .inr (by show (1#16 : Word).extractLsb' 1 15 = 0#15; decide), .inr (.inl rfl)⟩,
      by simp [mayReport], by simp⟩
  | fcReadCoils => exact execShape_delimit h rfl
  | fcReadDiscreteInputs => exact execShape_delimit h rfl
  | fcReadHoldingRegisters => exact execShape_delimit h rfl
  | fcReadInputRegisters => exact execShape_delimit h rfl
  | fcWriteSingleCoil => exact execShape_delimit h rfl
  | fcWriteSingleRegister => exact execShape_delimit h rfl
  | fcWriteMultipleCoils => exact execShape_delimit h rfl
  | fcWriteMultipleRegisters => exact execShape_delimit h rfl
  | fcException v => exact execShape_delimit h rfl

end Sys2Proof.Machine
end

