-- ==== Sys2Proof/Laws/Issue.lean ====
section
/-! SUPPORT. Laws/Issue.lean: what `HostIssue(w)` does with a word, opcode by opcode. -/

namespace Sys2Proof.Machine

theorem rejected_rejectCommand (s : State) : Rejected (rejectCommand s) s := ends_complete _ s (by simp)

/-- A word whose OP is an opcode's is that command when it passes the opcode's mask, and is rejected when it does not. -/
theorem hostIssue_of_opcode (o : Opcode) (w : CommandWord) (s : State) (h : fieldOp w = opcodeByte o) :
    (w &&& opcodeMask o = opcodeMatch o →
      hostIssue w s = exec (instrOf o (fieldA w) (fieldB w) (fieldC w) (fieldD w) (fieldE w)) s) ∧
    (w &&& opcodeMask o ≠ opcodeMatch o → Rejected (hostIssue w s) s) := by
  have hd : decode w = if w &&& opcodeMask o = opcodeMatch o then
      .ok (instrOf o (fieldA w) (fieldB w) (fieldC w) (fieldD w) (fieldE w)) else .error .reservedField := by
    unfold decode
    rw [h, opcodeOf_opcodeByte]
  constructor
  · intro hm
    unfold hostIssue
    rw [hd, if_pos hm]
  · intro hm
    unfold hostIssue
    rw [hd, if_neg hm]
    exact rejected_rejectCommand s

/-- The encoding rule of an opcode, from its reserved-zero fields and its operands. -/
theorem encodingRule_of_opcode (o : Opcode) {z : CommandWord → Prop} {i : CommandWord → Instr}
    (hz : ∀ w, z w ↔ fieldA w &&& fieldA (opcodeMask o) = 0#8 ∧ fieldB w &&& fieldB (opcodeMask o) = 0#8 ∧
      fieldC w &&& fieldC (opcodeMask o) = 0#8 ∧ fieldD w &&& fieldD (opcodeMask o) = 0#16 ∧
      fieldE w &&& fieldE (opcodeMask o) = 0#16)
    (hi : ∀ w, i w = instrOf o (fieldA w) (fieldB w) (fieldC w) (fieldD w) (fieldE w)) :
    EncodingRule (opcodeByte o) z i := by
  intro w s hop
  have hm : w &&& opcodeMask o = opcodeMatch o ↔ z w := by
    conv => lhs; rw [← commandWord_fields w]
    rw [commandWord_and_mask, hz w]
    exact ⟨fun h => h.2, fun h => ⟨hop, h⟩⟩
  have h := hostIssue_of_opcode o w s hop
  rw [hi w]
  exact ⟨fun hz => h.1 (hm.2 hz), fun hz => h.2 (fun he => hz (hm.1 he))⟩

end Sys2Proof.Machine
end

