-- ==== Sys2Proof/Laws/PerInstr.lean ====
section
/-! SUPPORT. Laws/PerInstr.lean: statements made instruction by instruction. -/

namespace Sys2Proof.Laws

/-- The opcode of a command; a function-code row has none. -/
def opcodeOfInstr : Instr → Option Opcode
  | .nop => some .nop
  | .crcInit => some .crcInit
  | .crcByte _ => some .crcByte
  | .crcBlock => some .crcBlock
  | .crcLoad _ => some .crcLoad
  | .crc16 => some .crc16
  | .rtuEncode _ => some .rtuEncode
  | .rtuDecode => some .rtuDecode
  | .rtuDelimit _ => some .rtuDelimit
  | .writeNorm => some .writeNorm
  | .wrRegFrame _ _ _ => some .wrRegFrame
  | .mbapParse => some .mbapParse
  | .mbapBuild _ _ => some .mbapBuild
  | .mbapException _ _ _ _ _ => some .mbapException
  | .rtuFromMbap => some .rtuFromMbap
  | .mbapFromRtu _ _ _ => some .mbapFromRtu
  | .setCfg _ _ => some .setCfg
  | .getCfg _ => some .getCfg
  | .softReset => some .softReset
  | .fcReadCoils => none
  | .fcReadDiscreteInputs => none
  | .fcReadHoldingRegisters => none
  | .fcReadInputRegisters => none
  | .fcWriteSingleCoil => none
  | .fcWriteSingleRegister => none
  | .fcWriteMultipleCoils => none
  | .fcWriteMultipleRegisters => none
  | .fcException _ => none

/-- A well-formed command is encoded as a word that matches its own row of the opcode table under the row's mask (rule
R48), and a function-code row as a byte that its own row of rule R56 takes. -/
def Encoding.Statement (i : Instr) : Prop :=
  i.wellFormed = true →
    match encode i, opcodeOfInstr i with
    | .command w, some o => w &&& opcodeMask o = opcodeMatch o
    | .functionCode v, none => decodeFunctionCode v = .ok i
    | _, _ => False

theorem Encoding.nop : Encoding.Statement .nop := fun _ =>
  (commandWord_and_mask .nop _ _ _ _ _ _).2 ⟨rfl, BitVec.zero_and, BitVec.zero_and, BitVec.zero_and, BitVec.zero_and, BitVec.zero_and⟩
theorem Encoding.crcInit : Encoding.Statement .crcInit := fun _ =>
  (commandWord_and_mask .crcInit _ _ _ _ _ _).2 ⟨rfl, BitVec.zero_and, BitVec.zero_and, BitVec.zero_and, BitVec.zero_and, BitVec.zero_and⟩
theorem Encoding.crcByte (byte : Byte) : Encoding.Statement (.crcByte byte) := fun _ =>
  (commandWord_and_mask .crcByte _ _ _ _ _ _).2 ⟨rfl, BitVec.and_zero, BitVec.zero_and, BitVec.zero_and, BitVec.zero_and, BitVec.zero_and⟩
theorem Encoding.crcBlock : Encoding.Statement .crcBlock := fun _ =>
  (commandWord_and_mask .crcBlock _ _ _ _ _ _).2 ⟨rfl, BitVec.zero_and, BitVec.zero_and, BitVec.zero_and, BitVec.zero_and, BitVec.zero_and⟩
theorem Encoding.crcLoad (value : Word) : Encoding.Statement (.crcLoad value) := fun _ =>
  (commandWord_and_mask .crcLoad _ _ _ _ _ _).2 ⟨rfl, BitVec.zero_and, BitVec.zero_and, BitVec.zero_and, BitVec.and_zero, BitVec.zero_and⟩
theorem Encoding.crc16 : Encoding.Statement .crc16 := fun _ =>
  (commandWord_and_mask .crc16 _ _ _ _ _ _).2 ⟨rfl, BitVec.zero_and, BitVec.zero_and, BitVec.zero_and, BitVec.zero_and, BitVec.zero_and⟩
theorem Encoding.rtuEncode (slave : Byte) : Encoding.Statement (.rtuEncode slave) := fun _ =>
  (commandWord_and_mask .rtuEncode _ _ _ _ _ _).2 ⟨rfl, BitVec.and_zero, BitVec.zero_and, BitVec.zero_and, BitVec.zero_and, BitVec.zero_and⟩
theorem Encoding.rtuDecode : Encoding.Statement .rtuDecode := fun _ =>
  (commandWord_and_mask .rtuDecode _ _ _ _ _ _).2 ⟨rfl, BitVec.zero_and, BitVec.zero_and, BitVec.zero_and, BitVec.zero_and, BitVec.zero_and⟩
theorem Encoding.rtuDelimit (fc : Byte) : Encoding.Statement (.rtuDelimit fc) := fun _ =>
  (commandWord_and_mask .rtuDelimit _ _ _ _ _ _).2 ⟨rfl, BitVec.zero_and, BitVec.and_zero, BitVec.zero_and, BitVec.zero_and, BitVec.zero_and⟩
theorem Encoding.writeNorm : Encoding.Statement .writeNorm := fun _ =>
  (commandWord_and_mask .writeNorm _ _ _ _ _ _).2 ⟨rfl, BitVec.zero_and, BitVec.zero_and, BitVec.zero_and, BitVec.zero_and, BitVec.zero_and⟩
theorem Encoding.wrRegFrame (slave : Byte) (addr : Word) (value : Word) : Encoding.Statement (.wrRegFrame slave addr value) := fun _ =>
  (commandWord_and_mask .wrRegFrame _ _ _ _ _ _).2 ⟨rfl, BitVec.and_zero, BitVec.zero_and, BitVec.zero_and, BitVec.and_zero, BitVec.and_zero⟩
theorem Encoding.mbapParse : Encoding.Statement .mbapParse := fun _ =>
  (commandWord_and_mask .mbapParse _ _ _ _ _ _).2 ⟨rfl, BitVec.zero_and, BitVec.zero_and, BitVec.zero_and, BitVec.zero_and, BitVec.zero_and⟩
theorem Encoding.mbapBuild (unit : Byte) (tid : Word) : Encoding.Statement (.mbapBuild unit tid) := fun _ =>
  (commandWord_and_mask .mbapBuild _ _ _ _ _ _).2 ⟨rfl, BitVec.and_zero, BitVec.zero_and, BitVec.zero_and, BitVec.and_zero, BitVec.zero_and⟩
theorem Encoding.mbapException (unit : Byte) (fc : Byte) (kind : Byte) (tid : Word) (code : Word) : Encoding.Statement (.mbapException unit fc kind tid code) := by
  intro h
  have hc : code &&& 0xFF00#16 = 0#16 := by
    apply BitVec.eq_of_getLsbD_eq
    intro i hi
    have hz : code.extractLsb' 8 8 = 0#8 := by simpa [Instr.wellFormed] using h
    have hb := congrArg (fun v => v.getLsbD (i - 8)) hz
    simp only [BitVec.getLsbD_extractLsb', BitVec.getLsbD_and] at hb ⊢
    interval_cases i <;> simp_all
  refine (commandWord_and_mask .mbapException _ _ _ _ _ _).2 ⟨rfl, ?_, ?_, ?_, ?_, hc⟩ <;>
    exact BitVec.and_zero
theorem Encoding.rtuFromMbap : Encoding.Statement .rtuFromMbap := fun _ =>
  (commandWord_and_mask .rtuFromMbap _ _ _ _ _ _).2 ⟨rfl, BitVec.zero_and, BitVec.zero_and, BitVec.zero_and, BitVec.zero_and, BitVec.zero_and⟩
theorem Encoding.mbapFromRtu (unit : Byte) (fc : Byte) (tid : Word) : Encoding.Statement (.mbapFromRtu unit fc tid) := fun _ =>
  (commandWord_and_mask .mbapFromRtu _ _ _ _ _ _).2 ⟨rfl, BitVec.and_zero, BitVec.and_zero, BitVec.zero_and, BitVec.and_zero, BitVec.zero_and⟩
theorem Encoding.setCfg (idx : Byte) (value : Word) : Encoding.Statement (.setCfg idx value) := fun _ =>
  (commandWord_and_mask .setCfg _ _ _ _ _ _).2 ⟨rfl, BitVec.and_zero, BitVec.zero_and, BitVec.zero_and, BitVec.and_zero, BitVec.zero_and⟩
theorem Encoding.getCfg (idx : Byte) : Encoding.Statement (.getCfg idx) := fun _ =>
  (commandWord_and_mask .getCfg _ _ _ _ _ _).2 ⟨rfl, BitVec.and_zero, BitVec.zero_and, BitVec.zero_and, BitVec.zero_and, BitVec.zero_and⟩
theorem Encoding.softReset : Encoding.Statement .softReset := fun _ =>
  (commandWord_and_mask .softReset _ _ _ _ _ _).2 ⟨rfl, BitVec.zero_and, BitVec.zero_and, BitVec.zero_and, BitVec.zero_and, BitVec.zero_and⟩
theorem Encoding.fcReadCoils : Encoding.Statement .fcReadCoils := fun _ => rfl
theorem Encoding.fcReadDiscreteInputs : Encoding.Statement .fcReadDiscreteInputs := fun _ => rfl
theorem Encoding.fcReadHoldingRegisters : Encoding.Statement .fcReadHoldingRegisters := fun _ => rfl
theorem Encoding.fcReadInputRegisters : Encoding.Statement .fcReadInputRegisters := fun _ => rfl
theorem Encoding.fcWriteSingleCoil : Encoding.Statement .fcWriteSingleCoil := fun _ => rfl
theorem Encoding.fcWriteSingleRegister : Encoding.Statement .fcWriteSingleRegister := fun _ => rfl
theorem Encoding.fcWriteMultipleCoils : Encoding.Statement .fcWriteMultipleCoils := fun _ => rfl
theorem Encoding.fcWriteMultipleRegisters : Encoding.Statement .fcWriteMultipleRegisters := fun _ => rfl
theorem Encoding.fcException (value : Byte) : Encoding.Statement (.fcException value) := by
  intro h
  have h7 : value.getLsbD 7 = true := h
  simp only [encode, opcodeOfInstr, decodeFunctionCode, h7, if_true]

end Sys2Proof.Laws
end

