-- ==== Sys2Proof/Laws/Run.lean ====
section
/-! SUPPORT. Laws/Run.lean: runs of several steps, taken apart. -/

namespace Sys2Proof.Machine

/-- A step is the host's next action. -/
theorem step_of_queue {s : State} {a : HostAction} {rest : List HostAction} (h : s.hostQueue = a :: rest) :
    step s = perform a { s with hostQueue := rest } := by
  unfold step hostStep
  rw [h]

/-- A run goes on from where its first step leads. -/
theorem run_succ_of_step (n : Nat) (s t : State) (h : step s = .next t) :
    Host.Core.run Sys2Proof.core (n + 1) s = Host.Core.run Sys2Proof.core n t := by
  have h' : Sys2Proof.core.step s = .next t := h
  have e := Host.Core.run.eq_2 Sys2Proof.core s n
  rw [h'] at e
  exact e

/-- A run of `m + n` steps is a run of `m` and then one of `n`. -/
theorem run_add_of_run (m n : Nat) (s t : State) (h : Host.Core.run Sys2Proof.core m s = .next t) :
    Host.Core.run Sys2Proof.core (m + n) s = Host.Core.run Sys2Proof.core n t := by
  induction m generalizing s with
  | zero =>
    cases h
    rw [Nat.zero_add]
  | succ m ih =>
    rw [show m + 1 + n = (m + n) + 1 by omega]
    have e := Host.Core.run.eq_2 Sys2Proof.core s m
    rw [h] at e
    cases hs : Sys2Proof.core.step s with
    | next s' =>
      rw [hs] at e
      rw [run_succ_of_step _ _ _ hs]
      exact ih s' e.symm
    | fault r =>
      rw [hs] at e
      cases e
    | refused r =>
      rw [hs] at e
      cases e

end Sys2Proof.Machine
end

