-- ==== Sys2Proof/Tests/Slice0.lean ====
section
/-! SUPPORT. Tests/Slice0.lean: tests, whose expected results come from the spec (the vector or rule is named), and for
every obligation with hypotheses a witness that meets them. -/

namespace Sys2Proof.Tests
open Sys2Proof.Machine

/-! ## Helpers -/

/-- Bytes from numbers. -/
def bytes (l : List Nat) : List Byte := l.map (BitVec.ofNat 8)

/-- The state after power-on with `bs` loaded as the input. -/
def loaded (cap : Word) (bs : List Byte) : State :=
  { State.powerOn cap with ibuf := memWriteRange [] 0 bs, ilen := word bs.length }

/-- What a command reports when it completes. -/
def result : Host.Outcome State Fault Refusal → Option Completion
  | .next t => (outputBytes t).map fun out => ⟨t.status, t.res0, t.res1, t.res2, out⟩
  | .fault _ => none
  | .refused _ => none

theorem result_shows {r : Host.Outcome State Fault Refusal} {c : Completion} (h : result r = some c) :
    ∃ t, r = .next t ∧ t.status = c.status ∧ t.res0 = c.res0 ∧ t.res1 = c.res1 ∧ t.res2 = c.res2 ∧
      outputBytes t = some c.out := by
  cases r with
  | next t =>
    obtain ⟨out, ho, rfl⟩ := Option.map_eq_some_iff.1 h
    exact ⟨t, rfl, rfl, rfl, rfl, rfl, ho⟩
  | fault f => cases h
  | refused f => cases h

/-- The 25-byte response of spec/95 V-RTU-6. -/
def response : List Byte :=
  bytes [0x01, 0x03, 0x14, 0x00, 0x64, 0x00, 0xC8, 0x01, 0x2C, 0x01, 0x90, 0x01, 0xF4, 0x02, 0x58, 0x02, 0xBC, 0x03, 0x20,
    0x03, 0x84, 0x03, 0xE8, 0xDB, 0x70]

/-- The MBAP request of spec/95 V-MBAP-1. -/
def request : List Byte := bytes [0x00, 0x01, 0x00, 0x00, 0x00, 0x06, 0x01, 0x03, 0x00, 0x00, 0x00, 0x0A]

/-! ## Well-formedness: the two ill-formed terms are refused, their neighbours are not -/

theorem test_wf_refuses_wide_exception_code :
    (Instr.mbapException 0x01#8 0x03#8 0x04#8 0x0007#16 0x0104#16).wellFormed = false := by decide
theorem test_wf_accepts_exception_code :
    (Instr.mbapException 0x01#8 0x03#8 0x04#8 0x0007#16 0x00FF#16).wellFormed = true := by decide
theorem test_wf_refuses_plain_code_as_exception : (Instr.fcException 0x7F#8).wellFormed = false := by decide
theorem test_wf_accepts_exception_form : (Instr.fcException 0x80#8).wellFormed = true := by decide

/-! ## Decoding: a word of every constructor, written out from rule R46's layout and rule R47's placement of operands:
`EEEE DDDD CC BB AA OP` -/

theorem test_decode_nop : decode 0x0000_0000_00_00_00_00#64 = .ok .nop := by decide
theorem test_decode_crc_init : decode 0x0000_0000_00_00_00_01#64 = .ok .crcInit := by decide
theorem test_decode_crc_byte : decode 0x0000_0000_00_00_56_02#64 = .ok (.crcByte 0x56#8) := by decide
theorem test_decode_crc_block : decode 0x0000_0000_00_00_00_03#64 = .ok .crcBlock := by decide
theorem test_decode_crc_load : decode 0x0000_2140_00_00_00_04#64 = .ok (.crcLoad 0x2140#16) := by decide
theorem test_decode_crc16 : decode 0x0000_0000_00_00_00_05#64 = .ok .crc16 := by decide
theorem test_decode_rtu_encode : decode 0x0000_0000_00_00_FF_10#64 = .ok (.rtuEncode 0xFF#8) := by decide
theorem test_decode_rtu_decode : decode 0x0000_0000_00_00_00_11#64 = .ok .rtuDecode := by decide
theorem test_decode_rtu_delimit : decode 0x0000_0000_00_2B_00_12#64 = .ok (.rtuDelimit 0x2B#8) := by decide
theorem test_decode_write_norm : decode 0x0000_0000_00_00_00_13#64 = .ok .writeNorm := by decide
theorem test_decode_wr_reg_frame :
    decode 0x04D2_0064_00_00_01_14#64 = .ok (.wrRegFrame 0x01#8 0x0064#16 0x04D2#16) := by decide
theorem test_decode_mbap_parse : decode 0x0000_0000_00_00_00_20#64 = .ok .mbapParse := by decide
theorem test_decode_mbap_build : decode 0x0000_FFFF_00_00_11_21#64 = .ok (.mbapBuild 0x11#8 0xFFFF#16) := by decide
theorem test_decode_mbap_exception :
    decode 0x000B_0007_04_03_01_22#64 = .ok (.mbapException 0x01#8 0x03#8 0x04#8 0x0007#16 0x000B#16) := by decide
theorem test_decode_rtu_from_mbap : decode 0x0000_0000_00_00_00_23#64 = .ok .rtuFromMbap := by decide
theorem test_decode_mbap_from_rtu :
    decode 0x0000_0009_00_06_01_24#64 = .ok (.mbapFromRtu 0x01#8 0x06#8 0x0009#16) := by decide
theorem test_decode_set_cfg : decode 0x0000_00FE_00_00_01_30#64 = .ok (.setCfg 0x01#8 0x00FE#16) := by decide
theorem test_decode_get_cfg : decode 0x0000_0000_00_00_02_31#64 = .ok (.getCfg 0x02#8) := by decide
theorem test_decode_soft_reset : decode 0x0000_0000_00_00_00_7F#64 = .ok .softReset := by decide
/-- Rule R56's table, and a code that has no row. -/
theorem test_decode_function_codes :
    decodeFunctionCode 0x01#8 = .ok .fcReadCoils ∧ decodeFunctionCode 0x02#8 = .ok .fcReadDiscreteInputs ∧
    decodeFunctionCode 0x03#8 = .ok .fcReadHoldingRegisters ∧ decodeFunctionCode 0x04#8 = .ok .fcReadInputRegisters ∧
    decodeFunctionCode 0x05#8 = .ok .fcWriteSingleCoil ∧ decodeFunctionCode 0x06#8 = .ok .fcWriteSingleRegister ∧
    decodeFunctionCode 0x0F#8 = .ok .fcWriteMultipleCoils ∧ decodeFunctionCode 0x10#8 = .ok .fcWriteMultipleRegisters ∧
    decodeFunctionCode 0x83#8 = .ok (.fcException 0x83#8) ∧
    decodeFunctionCode 0x07#8 = .error .unassignedFunctionCode := by decide
/-- Rule R51 and the vectors V-CTL-16 to V-CTL-22, V-CRC-14, V-CRC-15, V-MBAP-31. -/
theorem test_decode_rejects_by_name :
    decode 0x0000_0000_00_00_00_06#64 = .error .reservedOpcode ∧
    decode 0x0000_0000_00_00_00_80#64 = .error .reservedOpcode ∧
    decode 0x0000_0000_00_00_00_FF#64 = .error .reservedOpcode ∧
    decode 0x0000_0000_00_00_01_00#64 = .error .reservedField ∧
    decode 0x8000_0000_00_00_00_00#64 = .error .reservedField ∧
    decode 0x0100_0000_00_00_00_30#64 = .error .reservedField ∧
    decode 0x0001_0064_01_00_01_14#64 = .error .reservedField ∧
    decode 0x0000_0000_00_01_00_02#64 = .error .reservedField ∧
    decode 0x0001_0000_00_00_00_04#64 = .error .reservedField ∧
    decode 0x0104_0007_04_03_01_22#64 = .error .reservedField := by decide
/-- Rule R38: the word on a byte transport. -/
theorem test_decode_bytes :
    decodeBytes (bytes [0x22, 0x01, 0x03, 0x01, 0x07, 0x00, 0x00, 0x00, 0xAA]) =
      .ok (.mbapException 0x01#8 0x03#8 0x01#8 0x0007#16 0x0000#16, bytes [0xAA]) ∧
    decodeBytes (bytes [0x00, 0x00]) = .error .tooFewBytes := by decide
/-- The example of rule R52, with an omitted operand, and what is no statement. -/
theorem test_assemble :
    assemble "MBAP_EXCEPTION" [("unit", .number 1), ("fc", .number 3), ("kind", .name "TIMEOUT"), ("tid", .number 7)] =
      some 0x0000000701030122#64 ∧
    assemble "GET_CFG" [("idx", .name "BUF_CAP")] = some 0x0000000000000231#64 ∧
    assemble "SOFT_RESET" [] = some 0x000000000000007F#64 ∧
    assemble "CRC_BYTE" [("value", .number 1)] = none ∧ assemble "CRC_BYTE" [("byte", .number 256)] = none := by decide

/-! ## The step and the host's two readings of a table word -/

theorem test_decode_table_word :
    decodeTableWord 64 0x04D2006400000114 = some (.wrRegFrame 0x01#8 0x0064#16 0x04D2#16) ∧
    decodeTableWord 8 0x10 = some .fcWriteMultipleRegisters ∧ decodeTableWord 64 0x06 = none := by decide
theorem test_step_runs_fetch_word :
    result (step (State.reset.withFetchWord 64 0x04D2006400000114)) =
      some ⟨.ok, 0xE92C#16, 0x0010#16, 0#16, bytes [0x01, 0x10, 0x00, 0x64, 0x00, 0x01, 0x02, 0x04, 0xD2, 0x2C, 0xE9]⟩ := by
  decide +kernel
/-- V-RTU-32's code on an empty input: class FIXED8, so 8 bytes are expected (R78). -/
theorem test_step_runs_function_code :
    result (step (State.reset.withFetchWord 8 0x05)) = some ⟨.needMore, 8#16, 0#16, 0#16, []⟩ := by decide
/-- R114: an index past the buffer names no location; R31: CFG is not read through the host port. -/
theorem test_host_refusals :
    perform (.writeIbuf 260 0#8) State.reset = .refused .noSuchLocation ∧
    perform (.readObuf 260) State.reset = .refused .noSuchLocation ∧
    perform (.readReg .cfgCtrl) State.reset = .refused .registerNotReadable := ⟨rfl, rfl, rfl⟩
/-- Program P3, step 3: after MBAP_PARSE's MALFORMED_FRAME with RES1 = 12 the host drops 12 bytes and parses again. -/
theorem test_stream_actions :
    streamActions 0x20#64 (bytes [0, 5, 0, 1, 0, 6, 1, 3, 0, 0, 0, 1, 0xAA])
      { State.reset with status := .malformedFrame, res1 := 12#16 } =
      [.writeIbuf 0 0xAA#8, .writeIlen 1#16, .issue 0x20#64] := by decide

/-! ## The instructions (spec/95) -/

/-- V-CTL-1. -/
theorem test_nop : result (exec .nop { State.reset with res0 := 1#16 }) = some ⟨.ok, 0#16, 0#16, 0#16, []⟩ := by decide
/-- V-CRC-2. -/
theorem test_crc_init :
    result (exec .crcInit { State.reset with crc := 0x1234#16 }) = some ⟨.ok, 0xFFFF#16, 0#16, 0#16, []⟩ := by decide
/-- V-CRC-6. -/
theorem test_crc_byte :
    result (exec (.crcByte 0x56#8) { State.reset with crc := 0x1234#16 }) = some ⟨.ok, 0xE993#16, 0#16, 0#16, []⟩ := by
  decide +kernel
/-- V-CRC-8. -/
theorem test_crc_block :
    result (exec .crcBlock { loaded 260#16 (bytes [0x00, 0x00, 0x00, 0x0A]) with crc := 0x2140#16 }) =
      some ⟨.ok, 0xCDC5#16, 0#16, 0#16, []⟩ := by decide +kernel
/-- V-CRC-13. -/
theorem test_crc_block_past_buffer :
    result (exec .crcBlock { State.reset with crc := 0x2140#16, ilen := 261#16 }) =
      some ⟨.badArg, 0#16, 0#16, 0#16, []⟩ := by decide
/-- P1, step 8. -/
theorem test_crc_load : result (exec (.crcLoad 0x2140#16) State.reset) = some ⟨.ok, 0x2140#16, 0#16, 0#16, []⟩ := by
  decide
/-- V-CRC-5. -/
theorem test_crc16 :
    result (exec .crc16 (loaded 260#16 (bytes [0x31, 0x32, 0x33, 0x34, 0x35, 0x36, 0x37, 0x38, 0x39]))) =
      some ⟨.ok, 0x4B37#16, 0#16, 0#16, bytes [0x37, 0x4B]⟩ := by decide +kernel
/-- V-RTU-3. -/
theorem test_rtu_encode :
    result (exec (.rtuEncode 0xFF#8) (loaded 260#16 (bytes [0x03, 0x00, 0x00, 0x00, 0x0A]))) =
      some ⟨.ok, 0x13D0#16, 0#16, 0#16, bytes [0xFF, 0x03, 0x00, 0x00, 0x00, 0x0A, 0xD0, 0x13]⟩ := by decide +kernel
/-- V-RTU-8. -/
theorem test_rtu_decode_exception :
    result (exec .rtuDecode (loaded 260#16 (bytes [0x01, 0x83, 0x02, 0xC0, 0xF1]))) =
      some ⟨.exceptionFrame, 0x0001#16, 0x0083#16, 0x0002#16, bytes [0x83, 0x02]⟩ := by decide +kernel
/-- V-RTU-12. -/
theorem test_rtu_decode_mismatch :
    result (exec .rtuDecode (loaded 260#16 (bytes [0x01, 0x83, 0x02, 0xC0, 0xF0]))) =
      some ⟨.crcMismatch, 0xF1C0#16, 0xF0C0#16, 0#16, []⟩ := by decide +kernel
/-- V-RTU-31. -/
theorem test_rtu_delimit_overflow :
    result (exec (.rtuDelimit 0x03#8) (loaded 100#16 (bytes [0x01, 0x03, 0xFF]))) =
      some ⟨.overflow, 0x0104#16, 0#16, 0#16, []⟩ := by decide
/-- V-RTU-26. -/
theorem test_rtu_delimit_corrupt_exception :
    result (exec (.rtuDelimit 0x03#8) (loaded 260#16 (bytes [0x01, 0x83, 0x02, 0xC0, 0xF0]))) =
      some ⟨.needMore, 5#16, 1#16, 1#16, []⟩ := by decide +kernel
/-- V-WR-1. -/
theorem test_write_norm :
    result (exec .writeNorm (loaded 260#16 (bytes [0x06, 0x00, 0x64, 0x04, 0xD2]))) =
      some ⟨.ok, 1#16, 0#16, 0#16, bytes [0x10, 0x00, 0x64, 0x00, 0x01, 0x02, 0x04, 0xD2]⟩ := by decide
/-- V-WR-2. -/
theorem test_write_norm_off :
    result (exec .writeNorm { loaded 260#16 (bytes [0x06, 0x00, 0x64, 0x04, 0xD2]) with cfgCtrl := 0#16 }) =
      some ⟨.ok, 0#16, 0#16, 0#16, bytes [0x06, 0x00, 0x64, 0x04, 0xD2]⟩ := by decide
/-- V-WR-11. -/
theorem test_wr_reg_frame :
    result (exec (.wrRegFrame 0xF7#8 0xFFFF#16 0x0000#16) State.reset) =
      some ⟨.ok, 0xF492#16, 0x0010#16, 0#16, bytes [0xF7, 0x10, 0xFF, 0xFF, 0x00, 0x01, 0x02, 0x00, 0x00, 0x92, 0xF4]⟩ := by
  decide +kernel
/-- V-WR-10. -/
theorem test_wr_reg_frame_off :
    result (exec (.wrRegFrame 0x01#8 0x0064#16 0x04D2#16) { State.reset with cfgCtrl := 0#16 }) =
      some ⟨.ok, 0x884A#16, 0x0006#16, 0#16, bytes [0x01, 0x06, 0x00, 0x64, 0x04, 0xD2, 0x4A, 0x88]⟩ := by decide +kernel
/-- V-MBAP-1. -/
theorem test_mbap_parse :
    result (exec .mbapParse (loaded 260#16 request)) =
      some ⟨.ok, 0x0001#16, 0x000C#16, 0x0001#16, bytes [0x03, 0x00, 0x00, 0x00, 0x0A]⟩ := by decide
/-- V-MBAP-7: a length of 0 drops the whole input. -/
theorem test_mbap_parse_malformed :
    result (exec .mbapParse (loaded 260#16 (bytes [0x00, 0x01, 0x00, 0x00, 0x00, 0x00, 0x01, 0x03, 0x00, 0x00]))) =
      some ⟨.malformedFrame, 0x0001#16, 0x000A#16, 0#16, []⟩ := by decide
/-- V-MBAP-16. -/
theorem test_mbap_build :
    result (exec (.mbapBuild 0x11#8 0xFFFF#16) (loaded 260#16 (bytes [0x83, 0x02]))) =
      some ⟨.ok, 0xFFFF#16, 0x0003#16, 0#16, bytes [0xFF, 0xFF, 0x00, 0x00, 0x00, 0x03, 0x11, 0x83, 0x02]⟩ := by decide
/-- V-MBAP-29. -/
theorem test_mbap_exception :
    result (exec (.mbapException 0x11#8 0x10#8 0x01#8 0x1234#16 0#16) State.reset) =
      some ⟨.ok, 0x1234#16, 0x000B#16, 0#16, bytes [0x12, 0x34, 0x00, 0x00, 0x00, 0x03, 0x11, 0x90, 0x0B]⟩ := by decide
/-- V-MBAP-26. -/
theorem test_mbap_exception_no_response :
    result (exec (.mbapException 0x01#8 0x03#8 0x06#8 0x0007#16 0#16) State.reset) =
      some ⟨.noResponse, 0x0007#16, 0#16, 0#16, []⟩ := by decide
/-- V-MBAP-34. -/
theorem test_rtu_from_mbap :
    result (exec .rtuFromMbap (loaded 260#16 (bytes [0x00, 0x09, 0x00, 0x00, 0x00, 0x06, 0x01, 0x06, 0x00, 0x64, 0x04, 0xD2]))) =
      some ⟨.ok, 0x0009#16, 0x000C#16, 0x0601#16,
        bytes [0x01, 0x10, 0x00, 0x64, 0x00, 0x01, 0x02, 0x04, 0xD2, 0x2C, 0xE9]⟩ := by decide +kernel
/-- V-MBAP-36. -/
theorem test_rtu_from_mbap_malformed :
    result (exec .rtuFromMbap (loaded 260#16 (bytes [0x00, 0x01, 0x00, 0x01, 0x00, 0x06, 0x01, 0x03, 0x00, 0x00, 0x00, 0x0A]))) =
      some ⟨.malformedFrame, 0x0001#16, 0x000C#16, 0#16, []⟩ := by decide
/-- V-MBAP-43: the client is sent its own function code's exception form. -/
theorem test_mbap_from_rtu_exception :
    result (exec (.mbapFromRtu 0x01#8 0x06#8 0x0009#16) (loaded 260#16 (bytes [0x01, 0x90, 0x04, 0x4D, 0xC3]))) =
      some ⟨.exceptionFrame, 0x0009#16, 0x0004#16, 0#16,
        bytes [0x00, 0x09, 0x00, 0x00, 0x00, 0x03, 0x01, 0x86, 0x04]⟩ := by decide +kernel
/-- V-MBAP-41. -/
theorem test_mbap_from_rtu_too_short :
    result (exec (.mbapFromRtu 0x01#8 0x03#8 0x0001#16) (loaded 260#16 (bytes [0x01, 0x03]))) =
      some ⟨.tooShort, 0x0001#16, 0x000B#16, 0#16, bytes [0x00, 0x01, 0x00, 0x00, 0x00, 0x03, 0x01, 0x83, 0x0B]⟩ := by decide
/-- V-CTL-13. -/
theorem test_set_cfg_bad_arg :
    result (exec (.setCfg 0x01#8 255#16) State.reset) = some ⟨.badArg, 0#16, 0#16, 0#16, []⟩ := by decide
/-- V-CTL-7. -/
theorem test_set_cfg : result (exec (.setCfg 0x00#8 0#16) State.reset) = some ⟨.ok, 0#16, 0#16, 0#16, []⟩ := by decide
/-- V-CTL-4 and V-CTL-5. -/
theorem test_get_cfg :
    result (exec (.getCfg 0x02#8) State.reset) = some ⟨.ok, 0x0104#16, 0#16, 0#16, []⟩ ∧
    result (exec (.getCfg 0x01#8) (State.powerOn 100#16)) = some ⟨.ok, 0x005E#16, 0#16, 0#16, []⟩ := by decide
/-- V-CTL-15. -/
theorem test_soft_reset :
    result (exec .softReset { State.reset with cfgCtrl := 0#16, cfgMbapLenMax := 10#16, crc := 0x1234#16 }) =
      some ⟨.ok, 0#16, 0#16, 0#16, []⟩ := by decide
/-- V-RTU-15, V-RTU-20 and V-RTU-29 by the rows' classes. -/
theorem test_function_code_rows :
    result (exec .fcReadHoldingRegisters (loaded 260#16 (bytes [0x01, 0x03, 0x14]))) =
      some ⟨.needMore, 0x0019#16, 0#16, 0#16, []⟩ ∧
    result (exec .fcWriteMultipleRegisters (loaded 260#16 (bytes [0x01, 0x10, 0x00, 0x64, 0x00, 0x01, 0x40, 0x16]))) =
      some ⟨.ok, 0x0008#16, 0#16, 0#16, []⟩ ∧
    result (exec (.fcException 0x83#8) (loaded 260#16 (bytes [0x01, 0x2B, 0x0E]))) =
      some ⟨.lengthUnknown, 0#16, 0#16, 0#16, []⟩ := by decide

/-! ## Witnesses: for each obligation with hypotheses, concrete inputs that meet them -/

theorem witness_input : InputIs (loaded 260#16 response) response := by decide

theorem witness_PowerOnResetFromAnyState :
    ({ loaded 260#16 response with hostQueue := [.reset] } : State).hostQueue = .reset :: [] := rfl

theorem witness_EveryStepKeepsTheInvariant :
    State.Inv { loaded 260#16 (bytes [1, 2]) with hostQueue := [.issue 0#64] } ∧
    ∃ t, step { loaded 260#16 (bytes [1, 2]) with hostQueue := [.issue 0#64] } = .next t :=
  ⟨⟨by decide, by decide, by decide, by decide, by decide, by decide, by decide, by decide, by decide, by decide⟩, _, rfl⟩

theorem witness_StepRunsTheDecodedCommand :
    ({ State.reset with hostQueue := [.issue 0x0000000000005602#64] } : State).hostQueue =
      .issue 0x0000000000005602#64 :: [] ∧ decode 0x0000000000005602#64 = .ok (.crcByte 0x56#8) := by decide

theorem witness_BlockWaitsForTheHost :
    State.reset.hostQueue = [] ∧ readsInput .mbapParse = true ∧ 8 ≤ (8#16 : Word).toNat ∧ responseClass 0x2B#8 = .other ∧ responseClass 0x05#8 ≠ .other := by
  decide

theorem witness_HostActionsDoWhatTheirRowSays : 259 < bufCap State.reset ∧ bufCap State.reset ≤ 260 := by decide

/-- One byte of output, so that index 0 is below OLEN and index 1 is at OLEN. -/
theorem witness_HostReadObufIsTheOutputOrADraw :
    State.Inv { State.reset with obuf := [(0, 0x41#8)], olen := 1#16 } ∧
    0 < (1#16 : Word).toNat ∧ (1#16 : Word).toNat ≤ 1 ∧ 1 < bufCap State.reset :=
  ⟨⟨by decide, by decide, by decide, by decide, by decide, by decide, by decide, by decide, by decide, by decide⟩,
    by decide, by decide, by decide⟩

/-- Both lists of R53's clauses; `response` has 25 bytes, and CONSUME's clause takes every k, also one above 25. -/
theorem witness_LoadAndConsumeSetTheInput :
    (List.replicate 260 0x00#8).length ≤ bufCap State.reset ∧ InputIs (loaded 260#16 response) response := by
  refine ⟨?_, witness_input⟩
  rw [List.length_replicate]
  decide

theorem witness_CrcStreamEqualsLoadThenCrc16 : (List.replicate 260 0x00#8).length ≤ bufCap State.reset :=
  witness_LoadAndConsumeSetTheInput.1

theorem witness_DecodeOfEncodeIsTheInstruction :
    (Instr.mbapException 0xFF#8 0xFF#8 0xFF#8 0xFFFF#16 0x00FF#16).wellFormed = true ∧
    (Instr.fcException 0xFF#8).wellFormed = true ∧ (Instr.wrRegFrame 0xFF#8 0xFFFF#16 0xFFFF#16).wellFormed = true := by decide

theorem witness_EncodeOfDecodeIsTheWord :
    decodeEncoded (.command 0x00FF000704030122#64) = .ok (.mbapException 0x01#8 0x03#8 0x04#8 0x0007#16 0x00FF#16) ∧
    decodeEncoded (.functionCode 0x80#8) = .ok (.fcException 0x80#8) := by decide

theorem witness_EveryWordIsACommandOrBadCommand :
    0x000000FE00000130#64 &&& opcodeMask .setCfg = opcodeMatch .setCfg ∧
    ∀ o ∈ opcodes, 0x0000000000000006#64 &&& opcodeMask o ≠ opcodeMatch o := by decide

/-- The ends of each reserved range of opcodes, and a reserved-zero field that is not zero. -/
theorem witness_ReservedWordsCompleteBadCommand :
    (∀ v ∈ [0x06, 0x0F, 0x15, 0x1F, 0x25, 0x2F, 0x32, 0x7E, 0x80, 0xFF],
      ((BitVec.ofNat 64 v).extractLsb' 0 8 : Byte).toNat = v) ∧
    opcodeByte .nop = (0x0000000000000100#64).extractLsb' 0 8 ∧
    0x0000000000000100#64 &&& opcodeMask .nop ≠ opcodeMatch .nop := by decide

/-- The encoding clause of every command: `opcodeMatch o` has OP and zeros everywhere else; with E[15:8] (for
WR_REG_FRAME, C) set to 1 a reserved-zero field is not zero. -/
theorem witness_EncodingRule :
    (∀ o ∈ opcodes, fieldOp (opcodeMatch o) = opcodeByte o ∧ fieldA (opcodeMatch o) = 0 ∧ fieldB (opcodeMatch o) = 0 ∧
      fieldC (opcodeMatch o) = 0 ∧ fieldD (opcodeMatch o) = 0 ∧ fieldE (opcodeMatch o) = 0) ∧
    (∀ o ∈ opcodes, fieldOp (opcodeMatch o ||| 0x0100000000000000#64) = opcodeByte o ∧
      (fieldE (opcodeMatch o ||| 0x0100000000000000#64)).extractLsb' 8 8 ≠ 0#8) ∧
    fieldOp 0x0000000001000014#64 = opcodeByte .wrRegFrame ∧ fieldC 0x0000000001000014#64 ≠ 0 := by decide

/-- The BAD_ARG clause of every command that reads the input (R61). -/
theorem witness_BadArgPastBuffer :
    bufCap { State.reset with ilen := 261#16 } < ({ State.reset with ilen := 261#16 } : State).ilen.toNat := by decide

/-- A member of each of R52's lists, with an operand omitted, and one at the top of its field. -/
theorem witness_AssembledStatementsAreEncodings :
    ("SOFT_RESET", Instr.softReset) ∈ [("NOP", Instr.nop), ("SOFT_RESET", .softReset)] ∧
    asmOperand "tid" (none : Option Word) = [] ∧ asmOperand "unit" (some 0xFF#8) = [("unit", .number 255)] ∧
    asmKind "TRANSPORT_ERROR" = some 6 ∧ asmIndex "BUF_CAP" = some 2 := by decide

theorem witness_EveryInstructionKeepsItsFrame :
    (∃ t, exec .softReset State.reset = .next t) ∧ writesCrc .mbapParse = false ∧ writesCfg .mbapParse = false ∧
    (∃ t, exec .mbapParse (loaded 260#16 request) = .next t) :=
  ⟨⟨_, rfl⟩, rfl, rfl, _, rfl⟩

theorem witness_FailedCommandChangesOnlyItsResults :
    (∃ t, exec .mbapParse (loaded 260#16 (request.take 6)) = .next t ∧ t.status = .needMore) ∧
    (∃ t, exec .rtuDecode (loaded 260#16 (bytes [0x01, 0x83, 0x02, 0xC0, 0xF0])) = .next t ∧ t.status = .crcMismatch) := by
  constructor
  · obtain ⟨t, h, hs, -⟩ := result_shows (r := exec .mbapParse (loaded 260#16 (request.take 6)))
      (c := ⟨.needMore, 0#16, 0#16, 0#16, []⟩) (by decide)
    exact ⟨t, h, hs⟩
  · obtain ⟨t, h, hs, -⟩ := result_shows test_rtu_decode_mismatch
    exact ⟨t, h, hs⟩

theorem witness_StatusCodesAndTheirWriters :
    (∃ t, exec .nop State.reset = .next t) ∧ ∃ t, hostIssue 0x06#64 State.reset = .next t ∧ t.status = .badCommand :=
  ⟨⟨_, rfl⟩, _, rfl, rfl⟩

/-- An unwritten last byte with ILEN at the buffer's end, and the same input with ILEN one past it. -/
theorem witness_FaultExactlyOnUnwrittenInput :
    (readsInput .crc16 = true ∧ ({ State.reset with ilen := 260#16 } : State).ilen.toNat ≤ bufCap State.reset ∧
      ∃ a, a < 260 ∧ memRead State.reset.ibuf a = none) ∧
    ¬ ((261#16 : Word).toNat ≤ bufCap State.reset) ∧ readsInput .nop = false :=
  ⟨⟨rfl, by decide, 259, by decide, rfl⟩, by decide, rfl⟩

/-- The fault itself: a command that reads an input byte that nothing has written. -/
theorem test_unwritten_input_faults :
    exec .crc16 { State.reset with ilen := 260#16 } = .fault .unwrittenInput := rfl

theorem witness_InputLengthIsCheckedFirst :
    readsInput .mbapParse = true ∧ readsInput .nop = false ∧ ∃ t, exec .nop State.reset = .next t :=
  ⟨rfl, rfl, _, rfl⟩

/-- Two states that differ in all that a command's outcome does not depend on. -/
theorem witness_OutcomeDependsOnlyOnInputAndConfiguration :
    let s := loaded 260#16 request
    let u : State := { s with crc := 0x1234#16, status := .overflow, res0 := 9#16, olen := 1#16, obuf := [(0, 0x41#8)] }
    s.ilen = u.ilen ∧ inputBytes s = inputBytes u ∧ s.cfgCtrl = u.cfgCtrl ∧ s.cfgMbapLenMax = u.cfgMbapLenMax ∧
      s.cfgBufCap = u.cfgBufCap ∧ readsCrc .mbapParse = false ∧ s.crc ≠ u.crc ∧ ∃ t, exec .mbapParse s = .next t :=
  ⟨rfl, rfl, rfl, rfl, rfl, rfl, by decide, _, rfl⟩

/-- A frame of three bytes, accepted: V-CRC-3's CRC of the body `00`. -/
theorem witness_CrcOkIsAZeroResidue :
    3 ≤ (bytes [0x00, 0xBF, 0x40]).length ∧ crcOk (bytes [0x00, 0xBF, 0x40]) = true ∧
    crcOk (bytes [0x00, 0xBF, 0x41]) = false := by decide +kernel

theorem witness_CrcBlockResult :
    InputIs (loaded 260#16 (bytes [0x01, 0x03])) (bytes [0x01, 0x03]) ∧ State.reset.ilen = 0#16 ∧
    (∃ t, exec .crcBlock (loaded 260#16 (bytes [0x01, 0x03])) = .next t ∧
      InputIs { loaded 260#16 (bytes [0x0A]) with crc := t.crc } (bytes [0x0A]) ∧
      ∃ v, exec .crcBlock { loaded 260#16 (bytes [0x0A]) with crc := t.crc } = .next v) ∧
    InputIs (loaded 260#16 (bytes [0x01, 0x03] ++ bytes [0x0A])) (bytes [0x01, 0x03] ++ bytes [0x0A]) ∧
    ∃ x, exec .crcBlock (loaded 260#16 (bytes [0x01, 0x03] ++ bytes [0x0A])) = .next x :=
  ⟨by decide, rfl, ⟨_, rfl, by exact ⟨by decide, by decide⟩, _, rfl⟩, by decide, _, rfl⟩

theorem witness_Crc16Result :
    InputIs State.reset [] ∧ InputIs (loaded 260#16 (bytes [0x00, 0xBF, 0x40])) (bytes [0x00, 0xBF, 0x40]) ∧
    crcOk (bytes [0x00, 0xBF, 0x40]) = true := ⟨by decide, by decide, by decide +kernel⟩

/-- Lengths 0, 1, and the last that fits (13 of a 16-byte buffer) and the first that does not. -/
theorem witness_RtuEncodeResult :
    InputIs State.reset [] ∧ InputIs (loaded 16#16 (List.replicate 13 0x03#8)) (List.replicate 13 0x03#8) ∧
    InputIs (loaded 16#16 (List.replicate 14 0x03#8)) (List.replicate 14 0x03#8) ∧
    13 + 3 ≤ bufCap (loaded 16#16 (List.replicate 13 0x03#8)) ∧
    bufCap (loaded 16#16 (List.replicate 14 0x03#8)) < 14 + 3 := by decide

/-- Three bytes; four and five with a good CRC and bit 7 of the function code set and clear; a bad CRC. -/
theorem witness_RtuDecodeResult :
    InputIs (loaded 260#16 (bytes [0x01, 0x03, 0x00])) (bytes [0x01, 0x03, 0x00]) ∧
    (∀ inp ∈ [bytes [0x01, 0x83, 0x41, 0x81], bytes [0x01, 0x07, 0x41, 0xE2], bytes [0x01, 0x83, 0x02, 0xC0, 0xF1]],
      InputIs (loaded 260#16 inp) inp ∧ 4 ≤ inp.length ∧
      crc16Of (inp.take (inp.length - 2)) = le16 (byteAt inp (inp.length - 2)) (byteAt inp (inp.length - 1))) ∧
    (bytes [0x01, 0x83, 0x41, 0x81]).length = 4 ∧ isExceptionCode (byteAt (bytes [0x01, 0x83, 0x41, 0x81]) 1) = true ∧
    isExceptionCode (byteAt (bytes [0x01, 0x07, 0x41, 0xE2]) 1) = false ∧
    (bytes [0x01, 0x83, 0x02, 0xC0, 0xF1]).length = 5 ∧
    crc16Of (bytes [0x01, 0x83, 0x02]) ≠ le16 0xC0#8 0xF0#8 := by decide +kernel

/-- RTU_DELIMIT's clauses (and those of the function-code rows): 2, 4 and 5 bytes of an exception frame, with a good and
a bad CRC; 2 and 3 bytes of a READ_BC response; an expected length at, below and past the input's length and past the
buffer; FIXED8 and OTHER. -/
theorem witness_RtuDelimitResult :
    (∀ inp ∈ [bytes [0x01, 0x83], bytes [0x01, 0x83, 0x02, 0xC0], bytes [0x01, 0x83, 0x02, 0xC0, 0xF1],
        bytes [0x01, 0x83, 0x02, 0xC0, 0xF0]],
      InputIs (loaded 260#16 inp) inp ∧ 2 ≤ inp.length ∧ isExceptionCode (byteAt inp 1) = true) ∧
    crcOk (slice (bytes [0x01, 0x83, 0x02, 0xC0, 0xF1]) 0 5) = true ∧
    crcOk (slice (bytes [0x01, 0x83, 0x02, 0xC0, 0xF0]) 0 5) = false ∧
    (∀ inp ∈ [bytes [0x01, 0x03], bytes [0x01, 0x03, 0x14], response, response ++ bytes [0x00], bytes [0x01, 0x2B, 0x0E]],
      InputIs (loaded 260#16 inp) inp ∧ isExceptionCode (byteAt inp 1) = false) ∧
    3 + (byteAt response 2).toNat + 2 = response.length ∧
    InputIs (loaded 100#16 (bytes [0x01, 0x03, 0xFF])) (bytes [0x01, 0x03, 0xFF]) ∧
    bufCap (loaded 100#16 (bytes [0x01, 0x03, 0xFF])) < 3 + (0xFF#8 : Byte).toNat + 2 ∧
    responseClass 0x04#8 = .readBc ∧ responseClass 0x0F#8 = .fixed8 ∧ responseClass 0x00#8 = .other ∧
    responseClass 0x11#8 = .other := by decide +kernel

theorem witness_FunctionCodeRowsRunTheirClass :
    decodeFunctionCode 0x83#8 = .ok (.fcException 0x83#8) ∧ (0x80#8 : Byte).getLsbD 7 = true ∧
    InputIs (loaded 260#16 (bytes [0x01, 0x03])) (bytes [0x01, 0x03]) := by decide

theorem witness_RtuRoundTrip :
    (∃ t p, exec .rtuDecode (loaded 260#16 (bytes [0x01, 0x83, 0x02, 0xC0, 0xF1])) = .next t ∧ t.status = .exceptionFrame ∧
      outputBytes t = some p ∧ InputIs (loaded 260#16 p) p) ∧
    (∃ t f, exec (.rtuEncode 0xFF#8) (loaded 260#16 (bytes [0x03, 0x00, 0x00, 0x00, 0x0A])) = .next t ∧ t.status = .ok ∧
      outputBytes t = some f ∧ InputIs (loaded 260#16 f) f) ∧
    (∀ p ∈ [bytes [0x83], bytes [0x83, 0x02]], InputIs (loaded 260#16 p) p ∧ isExceptionCode (byteAt p 0) = true) := by
  refine ⟨?_, ?_, by decide⟩
  · obtain ⟨t, h, hs, -, -, -, ho⟩ := result_shows test_rtu_decode_exception
    exact ⟨t, _, h, hs, ho, by decide⟩
  · obtain ⟨t, h, hs, -, -, -, ho⟩ := result_shows test_rtu_encode
    exact ⟨t, _, h, hs, ho, by decide⟩

theorem witness_SingleByteCorruptionIsRejected :
    (∃ t, exec .rtuDecode (loaded 260#16 (bytes [0x01, 0x83, 0x02, 0xC0, 0xF1])) = .next t ∧ t.status = .exceptionFrame) ∧
    0xF0#8 ≠ byteAt (bytes [0x01, 0x83, 0x02, 0xC0, 0xF1]) 4 ∧
    InputIs (loaded 260#16 (bytes [0x01, 0x83, 0x02, 0xC0, 0xF0])) ((bytes [0x01, 0x83, 0x02, 0xC0, 0xF1]).set 4 0xF0#8) := by
  obtain ⟨t, h, hs, -⟩ := result_shows test_rtu_decode_exception
  exact ⟨⟨t, h, hs⟩, by decide, by decide⟩

theorem witness_ProducedFramesEndInTheirCrc :
    (∃ t, exec (.rtuEncode 0xFF#8) (loaded 260#16 (bytes [0x03, 0x00, 0x00, 0x00, 0x0A])) = .next t ∧ t.status = .ok) ∧
    (∃ t, exec (.wrRegFrame 0xF7#8 0xFFFF#16 0x0000#16) State.reset = .next t ∧ t.status = .ok) ∧
    (∃ t, exec .rtuFromMbap (loaded 260#16 (bytes [0x00, 0x09, 0x00, 0x00, 0x00, 0x06, 0x01, 0x06, 0x00, 0x64, 0x04, 0xD2]))
      = .next t ∧ t.status = .ok) := by
  obtain ⟨t, h, hs, -⟩ := result_shows test_rtu_encode
  obtain ⟨u, k, ks, -⟩ := result_shows test_wr_reg_frame
  obtain ⟨v, l, ls, -⟩ := result_shows test_rtu_from_mbap
  exact ⟨⟨t, h, hs⟩, ⟨u, k, ks⟩, v, l, ls⟩

/-- An empty PDU; a 0x06 PDU of 5 bytes; and one each that WRNORM, the length and the code leave alone. -/
theorem witness_WriteNormResult :
    InputIs State.reset [] ∧
    (∀ inp ∈ [bytes [0x06, 0x00, 0x64, 0x04, 0xD2], bytes [0x06, 0x00, 0x64, 0x04], bytes [0x05, 0x00, 0x01, 0xFF, 0x00]],
      InputIs (loaded 16#16 inp) inp ∧ inp ≠ []) ∧
    (loaded 16#16 []).cfgCtrl.getLsbD 0 = true ∧ 16 ≤ bufCap (loaded 16#16 []) ∧
    (0#16 : Word).getLsbD 0 = false := by decide

theorem witness_WrRegFrameResult :
    State.reset.cfgCtrl.getLsbD 0 = true ∧ ({ State.reset with cfgCtrl := 0#16 } : State).cfgCtrl.getLsbD 0 = false := by
  decide

theorem witness_RegisterWritesReachTheWireAlike :
    State.Inv (loaded 260#16 [hi 9#16, lo 9#16, 0x00#8, 0x00#8, 0x00#8, 0x06#8, 0x01#8, 0x06#8, hi 100#16, lo 100#16, hi 1234#16,
      lo 1234#16]) ∧
    InputIs (loaded 260#16 [hi 9#16, lo 9#16, 0x00#8, 0x00#8, 0x00#8, 0x06#8, 0x01#8, 0x06#8, hi 100#16, lo 100#16, hi 1234#16,
      lo 1234#16]) [hi 9#16, lo 9#16, 0x00#8, 0x00#8, 0x00#8, 0x06#8, 0x01#8, 0x06#8, hi 100#16, lo 100#16, hi 1234#16,
      lo 1234#16] ∧
    State.reset.cfgCtrl.getLsbD 0 = true ∧ 9 ≤ State.reset.cfgMbapLenMax.toNat ∧
    InputIs (loaded 260#16 [hi 9#16, lo 9#16, 0x00#8, 0x00#8, 0x00#8, 0x09#8, 0x01#8, 0x10#8, hi 100#16, lo 100#16, 0x00#8,
      0x01#8, 0x02#8, hi 1234#16, lo 1234#16]) [hi 9#16, lo 9#16, 0x00#8, 0x00#8, 0x00#8, 0x09#8, 0x01#8, 0x10#8, hi 100#16,
      lo 100#16, 0x00#8, 0x01#8, 0x02#8, hi 1234#16, lo 1234#16] :=
  ⟨⟨by decide, by decide, by decide, by decide, by decide, by decide, by decide, by decide, by decide, by decide⟩,
    by decide, by decide, by decide, by decide⟩

/-- A length field of 0, 1, 2, 254 and 255; 6 bytes, 7 bytes, one byte short, the whole frame; protocol id 0 and 1. -/
theorem witness_MbapParseResult :
    InputIs (loaded 260#16 (request.take 6)) (request.take 6) ∧
    (∀ len ∈ [0x00, 0x01, 0x02, 0xFE, 0xFF], ∀ inp ∈ [bytes [0x00, 0x01, 0x00, 0x00, 0x00, len, 0x01]],
      InputIs (loaded 260#16 inp) inp ∧ 7 ≤ inp.length ∧ (be16 (byteAt inp 4) (byteAt inp 5)).toNat = len) ∧
    State.reset.cfgMbapLenMax.toNat = 0xFE ∧
    (∀ inp ∈ [bytes [0x00, 0x01, 0x00, 0x00, 0x00, 0x02, 0x01, 0x07], bytes [0x00, 0x01, 0x00, 0x01, 0x00, 0x02, 0x01, 0x07]],
      InputIs (loaded 260#16 inp) inp ∧ 6 + 2 ≤ inp.length ∧ (be16 (byteAt inp 4) (byteAt inp 5)).toNat = 2) := by decide

theorem witness_ParsingAgainFindsTheSameFrame : ∃ t, exec .mbapParse (loaded 260#16 request) = .next t := ⟨_, rfl⟩

/-- An empty PDU, the longest that fits a 16-byte buffer (9) and the first that does not. -/
theorem witness_MbapBuildResult :
    InputIs State.reset [] ∧ InputIs (loaded 16#16 (List.replicate 9 0x03#8)) (List.replicate 9 0x03#8) ∧
    InputIs (loaded 16#16 (List.replicate 10 0x03#8)) (List.replicate 10 0x03#8) ∧
    9 + 7 ≤ bufCap (loaded 16#16 []) ∧ bufCap (loaded 16#16 []) < 10 + 7 := by decide

theorem witness_MbapExceptionResult : (0x00FF#16 : Word) = (0xFF#8 : Byte).setWidth 16 ∧ 0x07 ≤ (0x07#8 : Byte).toNat := by
  decide

/-- A request of each kind that is complete: one that WRNORM rewrites, and one that it leaves alone; and one that is not
complete. -/
theorem witness_RtuFromMbapResult :
    (∃ m p, InputIs (loaded 260#16 request) request ∧ exec .mbapParse (loaded 260#16 request) = .next m ∧ m.status = .ok ∧
      outputBytes m = some p ∧ p.length = 5 ∧ byteAt p 0 ≠ 0x06#8) ∧
    (∃ m, exec .mbapParse (loaded 260#16 (request.take 6)) = .next m ∧ m.status ≠ .ok) ∧
    (∃ m p, exec .mbapParse (loaded 12#16 (bytes [0, 9, 0, 0, 0, 6, 1, 6, 0, 0x64, 4, 0xD2])) = .next m ∧ m.status = .ok ∧
      outputBytes m = some p ∧ p.length = 5 ∧ byteAt p 0 = 0x06#8) ∧
    State.reset.cfgCtrl.getLsbD 0 = true := by
  obtain ⟨t, h, hs, -, -, -, ho⟩ := result_shows test_mbap_parse
  obtain ⟨u, k, ks⟩ := witness_FailedCommandChangesOnlyItsResults.1
  obtain ⟨v, l, ls, -, -, -, lo⟩ :=
    result_shows (r := exec .mbapParse (loaded 12#16 (bytes [0, 9, 0, 0, 0, 6, 1, 6, 0, 0x64, 4, 0xD2])))
      (c := ⟨.ok, 9#16, 12#16, 1#16, bytes [0x06, 0x00, 0x64, 0x04, 0xD2]⟩) (by decide)
  exact ⟨⟨t, _, by decide, h, hs, ho, by decide, by decide⟩, ⟨u, k, by rw [ks]; decide⟩,
    ⟨v, _, l, ls, lo, by decide, by decide⟩, by decide⟩

theorem witness_RtuFromMbapNeverOverflows : ∃ t, exec .rtuFromMbap (loaded 260#16 request) = .next t := ⟨_, rfl⟩

/-- The four verdicts of RTU_DECODE; the OK one with a PDU that, wrapped, fits and one (V-RTU-6's in a 26-byte buffer)
that does not. -/
theorem witness_MbapFromRtuResult :
    (∀ x ∈ [(260#16, bytes [0x01, 0x07, 0x41, 0xE2], Status.ok), (260#16, bytes [0x01, 0x83, 0x02, 0xC0, 0xF1], .exceptionFrame),
        (260#16, bytes [0x01, 0x83, 0x02, 0xC0, 0xF0], .crcMismatch), (260#16, bytes [0x01, 0x03], .tooShort),
        (26#16, response, .ok)],
      InputIs (loaded x.1 x.2.1) x.2.1 ∧ (result (exec .rtuDecode (loaded x.1 x.2.1))).map Completion.status = some x.2.2) ∧
    1 + 7 ≤ bufCap (loaded 260#16 []) ∧ bufCap (loaded 26#16 []) < 22 + 7 := by decide +kernel

theorem witness_MbapRoundTrip :
    ∃ t p, InputIs (loaded 260#16 request) request ∧ exec .mbapParse (loaded 260#16 request) = .next t ∧ t.status = .ok ∧
      outputBytes t = some p ∧ InputIs (loaded 260#16 p) p ∧
      (loaded 260#16 p).cfgBufCap = (loaded 260#16 request).cfgBufCap := by
  obtain ⟨t, h, hs, -, -, -, ho⟩ := result_shows test_mbap_parse
  exact ⟨t, _, by decide, h, hs, ho, by decide, rfl⟩

theorem witness_TransactionIdIsEchoed :
    (∃ t out, exec (.mbapBuild 0x11#8 0xFFFF#16) (loaded 260#16 (bytes [0x83, 0x02])) = .next t ∧
      outputBytes t = some out ∧ out ≠ []) ∧
    (∃ t out, exec (.mbapException 0x11#8 0x10#8 0x01#8 0x1234#16 0#16) State.reset = .next t ∧
      outputBytes t = some out ∧ out ≠ []) ∧
    (∃ t out, exec (.mbapFromRtu 0x01#8 0x06#8 0x0009#16) (loaded 260#16 (bytes [0x01, 0x90, 0x04, 0x4D, 0xC3])) = .next t ∧
      outputBytes t = some out ∧ out ≠ []) := by
  obtain ⟨t, h, -, -, -, -, ho⟩ := result_shows test_mbap_build
  obtain ⟨u, k, -, -, -, -, ko⟩ := result_shows test_mbap_exception
  obtain ⟨v, l, -, -, -, -, lo⟩ := result_shows test_mbap_from_rtu_exception
  exact ⟨⟨t, _, h, ho, by decide⟩, ⟨u, _, k, ko, by decide⟩, v, _, l, lo, by decide⟩

/-- CTRL at 1 and 2; MBAP_LEN_MAX at 1, 2, 254 and 255; the first index without a writable register. -/
theorem witness_SetCfgResult :
    (1#16 : Word).toNat ≤ 1 ∧ 1 < (2#16 : Word).toNat ∧ 2 ≤ (2#16 : Word).toNat ∧
    (254#16 : Word).toNat ≤ bufCap State.reset - 6 ∧ (1#16 : Word).toNat < 2 ∧ bufCap State.reset - 6 < (255#16 : Word).toNat ∧
    0x02 ≤ (0x02#8 : Byte).toNat := by decide

theorem witness_GetCfgResult : 0x03 ≤ (0x03#8 : Byte).toNat := by decide

end Sys2Proof.Tests
end

section
/-! Every command word is one opcode's command or completes BAD_COMMAND (rules R49 and R51). -/

namespace Sys2Proof.Machine

/-- A word meets an opcode's match only if its OP is the opcode's. -/
theorem fieldOp_of_match {o : Opcode} {w : CommandWord} (h : w &&& opcodeMask o = opcodeMatch o) :
    fieldOp w = opcodeByte o := by
  rw [← commandWord_fields w, commandWord_and_mask] at h
  obtain ⟨hop, -⟩ := h
  exact hop

/-- A word whose OP is no opcode's (R51) is rejected. -/
theorem rejected_of_opcodeOf_eq_none {w : CommandWord} (s : State) (h : opcodeOf (fieldOp w) = none) :
    Rejected (hostIssue w s) s := by
  have hd : decode w = .error .reservedOpcode := by
    unfold decode
    rw [h]
  unfold hostIssue
  rw [hd]
  exact rejected_rejectCommand s

/-- R49's second half: OP is either reserved, or an opcode's whose mask the word fails. -/
theorem rejected_of_no_match {w : CommandWord} (s : State) (h : ∀ o, w &&& opcodeMask o ≠ opcodeMatch o) :
    Rejected (hostIssue w s) s := by
  cases ho : opcodeOf (fieldOp w) with
  | none => exact rejected_of_opcodeOf_eq_none s ho
  | some o => exact (hostIssue_of_opcode o w s (opcodeOf_eq_some ho)).2 (h o)

/-- The reserved ranges of OP that rule R51 lists. -/
def ReservedOp (op : Nat) : Prop :=
  (0x06 ≤ op ∧ op ≤ 0x0F) ∨ (0x15 ≤ op ∧ op ≤ 0x1F) ∨ (0x25 ≤ op ∧ op ≤ 0x2F) ∨ (0x32 ≤ op ∧ op ≤ 0x7E) ∨
    0x80 ≤ op

theorem not_reservedOp_opcodeByte (o : Opcode) : ¬ ReservedOp (opcodeByte o).toNat := by
  unfold ReservedOp
  cases o <;> decide

theorem no_match_of_reservedOp {w : CommandWord} (h : ReservedOp (fieldOp w).toNat) (o : Opcode) :
    w &&& opcodeMask o ≠ opcodeMatch o := by
  intro hm
  rw [fieldOp_of_match hm] at h
  exact not_reservedOp_opcodeByte o h

/-- Settles O12: a match fixes OP, and then the decoder's one mask test is the match itself. -/
theorem everyWordIsACommandOrBadCommand : Obligations.EveryWordIsACommandOrBadCommand := by
  intro w s
  constructor
  · intro o hm
    exact (hostIssue_of_opcode o w s (fieldOp_of_match hm)).1 hm
  · exact rejected_of_no_match s

/-- Settles O13: no opcode's OP lies in a reserved range, so a word with a reserved OP meets no opcode's match; and a word
with an opcode's OP that fails its mask is what that opcode rejects. -/
theorem reservedWordsCompleteBadCommand : Obligations.ReservedWordsCompleteBadCommand := by
  intro w s h
  rcases h with hres | ⟨o, hop, hm⟩
  · exact rejected_of_no_match s (no_match_of_reservedOp hres)
  · exact (hostIssue_of_opcode o w s hop.symm).2 hm

end Sys2Proof.Machine
end

section
/-! The CRC commands (spec/40_crc.md): their results, the residue of a CRC-valid frame (rule R66), and the trailer of
every RTU frame the block produces (rule R67). -/

namespace Sys2Proof.Machine

/-! ## Encodings -/

/-- A command without operands (mask all ones, rule R48): every field of its word is reserved-zero. -/
theorem encodingRule_of_allOnes (o : Opcode) {i : CommandWord → Instr} (hm : opcodeMask o = BitVec.allOnes 64)
    (hi : ∀ w, i w = instrOf o (fieldA w) (fieldB w) (fieldC w) (fieldD w) (fieldE w)) :
    EncodingRule (opcodeByte o)
      (fun w => fieldA w = 0 ∧ fieldB w = 0 ∧ fieldC w = 0 ∧ fieldD w = 0 ∧ fieldE w = 0) i := by
  refine encodingRule_of_opcode o (fun w => ?_) hi
  rw [hm]
  show _ ↔ fieldA w &&& BitVec.allOnes 8 = 0#8 ∧ fieldB w &&& BitVec.allOnes 8 = 0#8 ∧
    fieldC w &&& BitVec.allOnes 8 = 0#8 ∧ fieldD w &&& BitVec.allOnes 16 = 0#16 ∧ fieldE w &&& BitVec.allOnes 16 = 0#16
  simp only [BitVec.and_allOnes]
  rfl

/-- CRC_BYTE leaves only A free (R47). -/
theorem encodingRule_crcByte :
    EncodingRule 0x02#8 (fun w => fieldB w = 0 ∧ fieldC w = 0 ∧ fieldD w = 0 ∧ fieldE w = 0)
      (fun w => .crcByte (fieldA w)) := by
  refine encodingRule_of_opcode .crcByte (fun w => ?_) (fun _ => rfl)
  show _ ↔ fieldA w &&& 0#8 = 0#8 ∧ fieldB w &&& BitVec.allOnes 8 = 0#8 ∧
    fieldC w &&& BitVec.allOnes 8 = 0#8 ∧ fieldD w &&& BitVec.allOnes 16 = 0#16 ∧ fieldE w &&& BitVec.allOnes 16 = 0#16
  simp only [BitVec.and_allOnes, BitVec.and_zero, true_and]
  rfl

/-- CRC_LOAD leaves only D free (R47). -/
theorem encodingRule_crcLoad :
    EncodingRule 0x04#8 (fun w => fieldA w = 0 ∧ fieldB w = 0 ∧ fieldC w = 0 ∧ fieldE w = 0)
      (fun w => .crcLoad (fieldD w)) := by
  refine encodingRule_of_opcode .crcLoad (fun w => ?_) (fun _ => rfl)
  show _ ↔ fieldA w &&& BitVec.allOnes 8 = 0#8 ∧ fieldB w &&& BitVec.allOnes 8 = 0#8 ∧
    fieldC w &&& BitVec.allOnes 8 = 0#8 ∧ fieldD w &&& 0#16 = 0#16 ∧ fieldE w &&& BitVec.allOnes 16 = 0#16
  simp only [BitVec.and_allOnes, BitVec.and_zero, true_and]
  rfl

/-! ## Results -/

/-- A CRC command ends with the new CRC in CRC and RES0. -/
theorem ends_completeCrc (c : Word) (out : List Byte) (s : State) (h : out.length < 65536) :
    Ends (completeCrc c out s) { s with crc := c } ⟨.ok, c, 0#16, 0#16, out⟩ :=
  ends_complete ⟨.ok, c, 0#16, 0#16, out⟩ (setCrc c s) h

theorem exec_crcBlock_of_inputIs {s : State} {inp : List Byte} (h : InputIs s inp) :
    exec .crcBlock s = completeCrc (crcOver s.crc inp) [] s :=
  withInput_of_inputIs h _

theorem exec_crc16_of_inputIs {s : State} {inp : List Byte} (h : InputIs s inp) :
    exec .crc16 s = completeCrc (crc16Of inp) (le (crc16Of inp)) s :=
  withInput_of_inputIs h _

theorem crc_of_crcBlock {s t : State} {inp : List Byte} (h : InputIs s inp) (ht : exec .crcBlock s = .next t) :
    t.crc = crcOver s.crc inp := by
  rw [exec_crcBlock_of_inputIs h] at ht
  cases ht
  rfl

/-- With ILEN 0 nothing need be written: the input is empty and readable. -/
theorem inputIs_nil {s : State} (h : s.ilen = 0#16) : InputIs s [] := by
  have h0 : s.ilen.toNat = 0 := by rw [h]; rfl
  refine ⟨by omega, ?_⟩
  rw [inputBytes, h0]
  rfl

/-- Settles O24: from every state the one completion is `ends_completeCrc`. -/
theorem crcInitResult : Obligations.CrcInitResult :=
  ⟨encodingRule_of_allOnes .crcInit rfl (fun _ => rfl), fun s => ends_completeCrc crcInitial [] s (by decide)⟩

/-- Settles O25: from every state the one completion is `ends_completeCrc`. -/
theorem crcByteResult : Obligations.CrcByteResult :=
  ⟨encodingRule_crcByte, fun b s => ends_completeCrc (crcStep s.crc b) [] s (by decide), by decide, by decide⟩

/-- Settles O27: from every state the one completion is `ends_completeCrc`. -/
theorem crcLoadResult : Obligations.CrcLoadResult :=
  ⟨encodingRule_crcLoad, fun v s => ends_completeCrc v [] s (by decide)⟩

/-- Settles O26: the CRC taken on over an input is a fold, so over `a ‖ b` it is the fold over `a` and then over `b`. -/
theorem crcBlockResult : Obligations.CrcBlockResult := by
  refine ⟨encodingRule_of_allOnes .crcBlock rfl (fun _ => rfl), badArgPastBuffer_of_withInput _ (fun _ => rfl),
    ?result, ?empty, ?append⟩
  case result =>
    intro s inp h
    rw [exec_crcBlock_of_inputIs h]
    exact ends_completeCrc (crcOver s.crc inp) [] s (by decide)
  case empty =>
    intro s h
    rw [exec_crcBlock_of_inputIs (inputIs_nil h)]
    exact ends_completeCrc s.crc [] s (by decide)
  case append =>
    intro s t u v w x a b hs ht hu hut hv hw hws hx
    rw [crc_of_crcBlock hw hx, hws, crcOver_append, crc_of_crcBlock hu hv, hut, crc_of_crcBlock hs ht]

/-! ## The residue of a frame (rule R66) -/

/-- While the bits shifted out are 0, no polynomial comes in. -/
theorem crcShifts_eq_ushiftRight {n : Nat} {c : Word} (h : ∀ i < n, c.getLsbD i = false) :
    crcShifts n c = c >>> n := by
  induction n generalizing c with
  | zero => exact (BitVec.ushiftRight_zero c).symm
  | succ n ih =>
    have hshift : crcShift c = c >>> 1 := by
      rw [crcShift, h 0 n.succ_pos, if_neg Bool.false_ne_true]
    have hbits : ∀ i < n, (c >>> 1).getLsbD i = false := by
      intro i hi
      rw [BitVec.getLsbD_ushiftRight]
      exact h (1 + i) (by omega)
    rw [crcShifts, hshift, ih hbits, ← BitVec.shiftRight_add, Nat.add_comm]

/-- Stepping over its own low byte moves the register's high byte down. -/
theorem crcStep_lo (c : Word) : crcStep c (lo c) = zext (hi c) := by
  have hlow : ∀ i < 8, (c ^^^ zext (lo c)).getLsbD i = false := by
    intro i hi
    simp [zext, lo, hi, show i < 16 by omega]
  rw [crcStep, crcShifts_eq_ushiftRight hlow]
  apply BitVec.eq_of_getLsbD_eq
  intro i hi16
  by_cases h8 : i < 8
  · simp [zext, lo, hi, h8, hi16]
  · simp [zext, lo, hi, h8, BitVec.getLsbD_of_ge c (8 + i) (by omega)]

theorem crcStep_zext (b : Byte) : crcStep (zext b) b = 0#16 := by
  rw [crcStep, BitVec.xor_self, crcShifts_eq_ushiftRight (by simp)]
  rfl

/-- A register taken on over its own two bytes, low byte first, is 0. -/
theorem crcOver_le (c : Word) : crcOver c (le c) = 0#16 := by
  rw [le, crcOver_cons, crcOver_cons, crcOver_nil, crcStep_lo, crcStep_zext]

theorem crc16Of_withCrc (body : List Byte) : crc16Of (withCrc body) = 0#16 := by
  rw [withCrc, crc16Of, crcOver_append]
  exact crcOver_le _

theorem le_le16 (x y : Byte) : le (le16 x y) = [x, y] := by
  rw [le, le16, lo_be16, hi_be16]

/-- A frame of two bytes or more is its body and its trailer. -/
theorem frameBody_append_le_frameTrailer {s : List Byte} (h : 2 ≤ s.length) :
    frameBody s ++ le (frameTrailer s) = s := by
  have htail : s.drop (s.length - 2) = le (frameTrailer s) := by
    rw [frameTrailer, le_le16, byteAt_eq_getElem s _ (by omega), byteAt_eq_getElem s _ (by omega),
      List.drop_eq_getElem_cons (by omega), List.drop_eq_getElem_cons (by omega),
      List.drop_eq_nil_of_le (by omega)]
    simp [show s.length - 2 + 1 = s.length - 1 by omega]
  rw [← htail]
  exact List.take_append_drop _ s

/-- A CRC-valid frame is its body with the body's CRC trailer (rules R65, R66). -/
theorem withCrc_frameBody_of_crcOk {s : List Byte} (h : crcOk s = true) : withCrc (frameBody s) = s := by
  simp only [crcOk, Bool.and_eq_true, decide_eq_true_eq, beq_iff_eq] at h
  obtain ⟨hlen, hcrc⟩ := h
  rw [withCrc, hcrc]
  exact frameBody_append_le_frameTrailer (by omega)

theorem crc16Of_of_crcOk {s : List Byte} (h : crcOk s = true) : crc16Of s = 0#16 := by
  rw [← withCrc_frameBody_of_crcOk h]
  exact crc16Of_withCrc _

/-- Settles O28: the CRC-valid frame's residue is `crcOver_le`, the register run over its own trailer. -/
theorem crc16Result : Obligations.Crc16Result := by
  refine ⟨encodingRule_of_allOnes .crc16 rfl (fun _ => rfl), badArgPastBuffer_of_withInput _ (fun _ => rfl), ?_⟩
  intro s inp h
  refine ⟨?result, ?empty, crc16Of_of_crcOk⟩
  case result =>
    rw [exec_crc16_of_inputIs h]
    exact ends_completeCrc (crc16Of inp) (le (crc16Of inp)) s (by simp)
  case empty =>
    rintro rfl
    rfl

/-! ## The trailer of every produced frame (rule R67) -/

/-- The completion's output is a frame: two bytes or more, then their CRC. -/
def EmitsFrame (c : Completion) : Prop := ∃ rest, c.out = withCrc rest ∧ 2 ≤ rest.length

theorem emitsFrame_rtuEncode {cap : Nat} {a : Byte} {inp : List Byte} (h : (rtuEncode cap a inp).status = .ok) :
    EmitsFrame (rtuEncode cap a inp) := by
  unfold rtuEncode at h ⊢
  split at h
  · cases h
  · split at h
    · cases h
    · rename_i hne hfit
      rw [if_neg hne, if_neg hfit]
      exact ⟨a :: inp, rfl, by rw [List.length_cons]; omega⟩

theorem length_le_length_normalise (on : Bool) (p : List Byte) : p.length ≤ (normalise on p).length := by
  unfold normalise
  split
  · rename_i h
    obtain ⟨-, hlen, -⟩ := h
    rw [hlen]
    simp
  · exact le_rfl

theorem emitsFrame_wrRegFrame (on : Bool) (a : Byte) (d e : Word) : EmitsFrame (wrRegFrame on a d e) := by
  refine ⟨a :: wrRegPdu on d e, rfl, ?_⟩
  have h : 5 ≤ (wrRegPdu on d e).length := length_le_length_normalise on (0x06#8 :: (be d ++ be e))
  rw [List.length_cons]
  omega

/-- The PDU of an accepted MBAP frame is not empty (rule R82: LENGTH is 2 or more, and all its bytes are there). -/
theorem mbapPdu_length_pos {lenMax : Nat} {inp : List Byte} (h : (mbapParse lenMax inp).status = .ok) :
    0 < (mbapPdu inp).length := by
  rw [mbapPdu, slice_length]
  unfold mbapParse at h
  split at h
  · cases h
  split at h
  · cases h
  split at h
  · cases h
  split at h
  · cases h
  omega

theorem emitsFrame_rtuFromMbap {cap lenMax : Nat} {on : Bool} {inp : List Byte}
    (h : (rtuFromMbap cap lenMax on inp).status = .ok) : EmitsFrame (rtuFromMbap cap lenMax on inp) := by
  unfold rtuFromMbap at h ⊢
  split at h
  · rename_i hbad
    exact absurd h hbad
  · split at h
    · cases h
    · rename_i hparse hfit
      rw [if_neg hparse, if_neg hfit]
      refine ⟨mbapUnit inp :: normalise on (mbapPdu inp), rfl, ?_⟩
      have hpdu := mbapPdu_length_pos (Decidable.not_not.1 hparse)
      have hnorm := length_le_length_normalise on (mbapPdu inp)
      rw [List.length_cons]
      omega

/-- A command that completes OK with a frame leaves the frame as its output. -/
theorem outputBytes_of_emitsFrame {c : Completion} {s t : State} (h : complete c s = .next t)
    (hst : t.status = .ok) (hlen : c.out.length < 65536) (hc : c.status = .ok → EmitsFrame c) :
    ∃ rest, outputBytes t = some (rest ++ [lo (crc16Of rest), hi (crc16Of rest)]) ∧ 2 ≤ rest.length := by
  cases h
  obtain ⟨rest, hout, hrest⟩ := hc hst
  refine ⟨rest, ?_, hrest⟩
  rw [outputBytes_finish c s hlen, hout]
  rfl

/-- A command that reads the input and completes OK ran on its input: BAD_ARG and the fault are the other two ways. -/
theorem inputIs_of_withInput_ok {s t : State} {k : List Byte → Host.Outcome State Fault Refusal}
    (h : withInput s k = .next t) (hst : t.status = .ok) : ∃ inp, InputIs s inp ∧ k inp = .next t := by
  rcases withInput_cases s k with ⟨inp, hi, he⟩ | ⟨-, he⟩ | ⟨-, -, he⟩
  · exact ⟨inp, hi, he ▸ h⟩
  · rw [he] at h
    cases h
    cases hst
  · rw [he] at h
    cases h

/-- Settles O35: each of the three completes OK only with an output made by `withCrc`. -/
theorem producedFramesEndInTheirCrc : Obligations.ProducedFramesEndInTheirCrc := by
  rintro i s t (⟨a, rfl⟩ | ⟨a, d, e, rfl⟩ | rfl) h hst
  · obtain ⟨inp, -, hk⟩ := inputIs_of_withInput_ok h hst
    exact outputBytes_of_emitsFrame hk hst (Nat.lt_of_le_of_lt (rtuEncode_out_length _ _ _) (bufCap_lt s))
      emitsFrame_rtuEncode
  · exact outputBytes_of_emitsFrame h hst (Nat.lt_of_le_of_lt (wrRegFrame_out_length _ _ _ _) (by decide))
      (fun _ => emitsFrame_wrRegFrame _ _ _ _)
  · obtain ⟨inp, -, hk⟩ := inputIs_of_withInput_ok h hst
    exact outputBytes_of_emitsFrame hk hst (Nat.lt_of_le_of_lt (rtuFromMbap_out_length _ _ _ _) (bufCap_lt s))
      emitsFrame_rtuFromMbap

end Sys2Proof.Machine
end

section
/-! The RTU commands (spec/41_rtu.md): what RTU_ENCODE (R76), RTU_DECODE (R77) and RTU_DELIMIT (R78) answer on a readable
input, and the two laws of encoder and decoder (R79, R80). -/

namespace Sys2Proof.Machine

/-! ## Encodings -/

/-- An opcode whose mask leaves only A free (rule R48). -/
theorem encodingRule_of_onlyA (o : Opcode) {i : CommandWord → Instr} (hm : opcodeMask o = 0xFFFFFFFFFFFF00FF#64)
    (hi : ∀ w, i w = instrOf o (fieldA w) (fieldB w) (fieldC w) (fieldD w) (fieldE w)) :
    EncodingRule (opcodeByte o) (fun w => fieldB w = 0 ∧ fieldC w = 0 ∧ fieldD w = 0 ∧ fieldE w = 0) i := by
  refine encodingRule_of_opcode o (fun w => ?_) hi
  rw [hm]
  show _ ↔ fieldA w &&& 0#8 = 0#8 ∧ fieldB w &&& BitVec.allOnes 8 = 0#8 ∧
    fieldC w &&& BitVec.allOnes 8 = 0#8 ∧ fieldD w &&& BitVec.allOnes 16 = 0#16 ∧ fieldE w &&& BitVec.allOnes 16 = 0#16
  simp only [BitVec.and_allOnes, BitVec.and_zero, true_and]
  rfl

/-- RTU_DELIMIT leaves only B free (R47). -/
theorem encodingRule_rtuDelimit :
    EncodingRule 0x12#8 (fun w => fieldA w = 0 ∧ fieldC w = 0 ∧ fieldD w = 0 ∧ fieldE w = 0)
      (fun w => .rtuDelimit (fieldB w)) := by
  refine encodingRule_of_opcode .rtuDelimit (fun w => ?_) (fun _ => rfl)
  show _ ↔ fieldA w &&& BitVec.allOnes 8 = 0#8 ∧ fieldB w &&& 0#8 = 0#8 ∧
    fieldC w &&& BitVec.allOnes 8 = 0#8 ∧ fieldD w &&& BitVec.allOnes 16 = 0#16 ∧ fieldE w &&& BitVec.allOnes 16 = 0#16
  simp only [BitVec.and_allOnes, BitVec.and_zero, true_and]
  rfl

/-! ## The commands on a readable input -/

theorem ends_rtuEncode {s : State} {inp : List Byte} (a : Byte) (h : InputIs s inp) :
    Ends (exec (.rtuEncode a) s) s (rtuEncode (bufCap s) a inp) := by
  have hrun : exec (.rtuEncode a) s = complete (rtuEncode (bufCap s) a inp) s := withInput_of_inputIs h _
  rw [hrun]
  exact ends_complete _ s (Nat.lt_of_le_of_lt (rtuEncode_out_length _ _ _) (bufCap_lt s))

theorem ends_rtuDecode {s : State} {inp : List Byte} (h : InputIs s inp) :
    Ends (exec .rtuDecode s) s (rtuDecode inp) := by
  have hrun : exec .rtuDecode s = complete (rtuDecode inp) s := withInput_of_inputIs h _
  rw [hrun]
  exact ends_complete _ s (Nat.lt_of_le_of_lt (rtuDecode_out_length _) h.length_lt)

theorem ends_runDelimit {s : State} {inp : List Byte} (cls : ResponseClass) (h : InputIs s inp) :
    Ends (runDelimit cls s) s (delimit (bufCap s) cls inp) := by
  have hrun : runDelimit cls s = complete (delimit (bufCap s) cls inp) s := withInput_of_inputIs h _
  rw [hrun]
  exact ends_complete _ s (by simp)

/-- The state a command answered shows the completion it ended with. -/
theorem Ends.shows {r : Host.Outcome State Fault Refusal} {s t : State} {c : Completion} (h : Ends r s c)
    (ht : r = .next t) : Shows t c := by
  obtain ⟨t', hr, hshows, -⟩ := h
  cases hr.symm.trans ht
  exact hshows

/-! ## RTU_ENCODE (R76) -/

theorem rtuEncode_of_length_eq_zero {cap : Nat} {a : Byte} {inp : List Byte} (h : inp.length = 0) :
    rtuEncode cap a inp = raised .badArg := if_pos h

theorem rtuEncode_of_overflow {cap : Nat} {a : Byte} {inp : List Byte} (h0 : 0 < inp.length)
    (h : cap < inp.length + 3) : rtuEncode cap a inp = raised .overflow := by
  rw [rtuEncode, if_neg (by omega), if_pos h]

theorem rtuEncode_of_fits {cap : Nat} {a : Byte} {inp : List Byte} (h0 : 0 < inp.length)
    (h : inp.length + 3 ≤ cap) :
    rtuEncode cap a inp = ⟨.ok, crc16Of (a :: inp), 0#16, 0#16, withCrc (a :: inp)⟩ := by
  rw [rtuEncode, if_neg (by omega), if_neg (by omega)]

/-- RTU_ENCODE completes OK only on a PDU that is not empty, and then its output is the frame. -/
theorem rtuEncode_of_ok {cap : Nat} {a : Byte} {inp : List Byte} (h : (rtuEncode cap a inp).status = .ok) :
    0 < inp.length ∧ (rtuEncode cap a inp).out = withCrc (a :: inp) := by
  by_cases h0 : inp.length = 0
  · rw [rtuEncode_of_length_eq_zero h0] at h
    cases h
  · by_cases hfit : inp.length + 3 ≤ cap
    · exact ⟨by omega, by rw [rtuEncode_of_fits (by omega) hfit]⟩
    · rw [rtuEncode_of_overflow (by omega) (by omega)] at h
      cases h

/-- Settles O29: the three clauses are the three equations of `rtuEncode`. -/
theorem rtuEncodeResult : Obligations.RtuEncodeResult := by
  refine ⟨encodingRule_of_onlyA .rtuEncode rfl (fun _ => rfl),
    fun _ => badArgPastBuffer_of_withInput _ (fun _ => rfl), ?_⟩
  intro s a inp h
  have hends := ends_rtuEncode a h
  refine ⟨?empty, ?overflow, ?fits⟩
  case empty =>
    intro h0
    rwa [rtuEncode_of_length_eq_zero h0] at hends
  case overflow =>
    intro h0 hcap
    rwa [rtuEncode_of_overflow h0 hcap] at hends
  case fits =>
    intro h0 hcap
    rwa [rtuEncode_of_fits h0 hcap] at hends

/-! ## RTU_DECODE (R77) -/

theorem rtuDecode_of_short {inp : List Byte} (h : inp.length < 4) : rtuDecode inp = raised .tooShort := if_pos h

theorem rtuDecode_of_mismatch {inp : List Byte} (h4 : 4 ≤ inp.length)
    (hcrc : crc16Of (frameBody inp) ≠ frameTrailer inp) :
    rtuDecode inp = raisedWith .crcMismatch (crc16Of (frameBody inp)) (frameTrailer inp) 0#16 := by
  rw [rtuDecode, if_neg (by omega), if_pos hcrc]

theorem rtuDecode_of_shortException {inp : List Byte} (h4 : inp.length = 4)
    (hcrc : crc16Of (frameBody inp) = frameTrailer inp) (hx : isExceptionCode (byteAt inp 1) = true) :
    rtuDecode inp = raised .tooShort := by
  rw [rtuDecode, if_neg (by omega), if_neg (not_not_intro hcrc), if_pos hx, if_pos (by omega)]

theorem rtuDecode_of_exception {inp : List Byte} (h5 : 5 ≤ inp.length)
    (hcrc : crc16Of (frameBody inp) = frameTrailer inp) (hx : isExceptionCode (byteAt inp 1) = true) :
    rtuDecode inp = ⟨.exceptionFrame, zext (byteAt inp 0), zext (byteAt inp 1), zext (byteAt inp 2),
      slice inp 1 (inp.length - 2)⟩ := by
  rw [rtuDecode, if_neg (by omega), if_neg (not_not_intro hcrc), if_pos hx, if_neg (by omega)]

theorem rtuDecode_of_plain {inp : List Byte} (h4 : 4 ≤ inp.length)
    (hcrc : crc16Of (frameBody inp) = frameTrailer inp) (hx : isExceptionCode (byteAt inp 1) = false) :
    rtuDecode inp = ⟨.ok, zext (byteAt inp 0), zext (byteAt inp 1), 0#16, slice inp 1 (inp.length - 2)⟩ := by
  rw [rtuDecode, if_neg (by omega), if_neg (not_not_intro hcrc), hx, if_neg Bool.false_ne_true]

/-- Settles O30: each clause is one of the five equations of `rtuDecode`. -/
theorem rtuDecodeResult : Obligations.RtuDecodeResult := by
  refine ⟨encodingRule_of_allOnes .rtuDecode rfl (fun _ => rfl), badArgPastBuffer_of_withInput _ (fun _ => rfl), ?_⟩
  intro s inp h
  have hends := ends_rtuDecode h
  refine ⟨?short, ?_⟩
  case short =>
    intro h4
    rwa [rtuDecode_of_short h4] at hends
  rintro c r h4 rfl rfl
  refine ⟨?mismatch, ?shortException, ?exception, ?plain⟩
  case mismatch =>
    intro hcrc
    rwa [rtuDecode_of_mismatch h4 hcrc] at hends
  case shortException =>
    intro hcrc hx hlen
    rwa [rtuDecode_of_shortException hlen hcrc hx] at hends
  case exception =>
    intro hcrc hx h5
    rwa [rtuDecode_of_exception h5 hcrc hx] at hends
  case plain =>
    intro hcrc hx
    rwa [rtuDecode_of_plain h4 hcrc hx] at hends

/-! ## RTU_DELIMIT (R78) -/

theorem delimitAt_of_ends {r : Host.Outcome State Fault Refusal} {s : State} {e : Nat} {inp : List Byte}
    (h : Ends r s (delimitAt (bufCap s) e inp)) : DelimitAt r s e inp := by
  unfold delimitAt at h
  refine ⟨?overflow, ?complete, ?more⟩
  case overflow =>
    intro hcap
    rwa [if_pos hcap] at h
  case complete =>
    intro hcap hlen
    rwa [if_neg (by omega), if_pos hlen] at h
  case more =>
    intro hcap hlen
    rwa [if_neg (by omega), if_neg (by omega)] at h

/-- The verdict of rule R78 is what a command says that ends with `delimit`. -/
theorem delimitVerdict_of_ends {r : Host.Outcome State Fault Refusal} {s : State} {cls : ResponseClass}
    {inp : List Byte} (h : Ends r s (delimit (bufCap s) cls inp)) : DelimitVerdict r s cls inp := by
  unfold delimit at h
  refine ⟨fun h2 hx => ?exception, fun hnone => ?normal⟩
  case exception =>
    rw [if_pos ⟨h2, hx⟩] at h
    refine ⟨?accepted, ?corrupt, ?incomplete⟩
    case accepted =>
      intro h5 hcrc
      rwa [if_pos ⟨h5, hcrc⟩] at h
    case corrupt =>
      intro h5 hcrc
      rwa [if_neg (by simp [hcrc]), if_pos h5] at h
    case incomplete =>
      intro h5
      rwa [if_neg (by omega), if_neg (by omega)] at h
  case normal =>
    have hnot : ¬ (inp.length ≥ 2 ∧ isExceptionCode (byteAt inp 1) = true) := by
      rintro ⟨h2, hx⟩
      rcases hnone with hlen | hplain
      · omega
      · exact Bool.false_ne_true (hplain.symm.trans hx)
    rw [if_neg hnot] at h
    refine ⟨?unknown, ?byteCount, ?fixed, ?other⟩
    case unknown =>
      rintro rfl h3
      rwa [if_pos h3] at h
    case byteCount =>
      rintro rfl h3
      rw [if_neg (by omega)] at h
      exact delimitAt_of_ends h
    case fixed =>
      rintro rfl
      exact delimitAt_of_ends h
    case other =>
      rintro rfl
      exact h

theorem responseClass_of_mem_readBc : ∀ fc ∈ [0x01#8, 0x02#8, 0x03#8, 0x04#8], responseClass fc = .readBc := by decide

theorem responseClass_of_mem_fixed8 : ∀ fc ∈ [0x05#8, 0x06#8, 0x0F#8, 0x10#8], responseClass fc = .fixed8 := by decide

theorem responseClass_of_not_mem {fc : Byte}
    (h : fc ∉ [0x01#8, 0x02#8, 0x03#8, 0x04#8, 0x05#8, 0x06#8, 0x0F#8, 0x10#8]) : responseClass fc = .other := by
  simp only [List.mem_cons, List.not_mem_nil, or_false, not_or] at h
  simp [responseClass, h]

/-- RTU_DELIMIT's verdict is that of its operand's class. -/
theorem delimitVerdict_rtuDelimit {s : State} {fc : Byte} {cls : ResponseClass} {inp : List Byte} (h : InputIs s inp)
    (hc : responseClass fc = cls) : DelimitVerdict (exec (.rtuDelimit fc) s) s cls inp := by
  subst hc
  exact delimitVerdict_of_ends (ends_runDelimit (responseClass fc) h)

/-- Settles O31: the verdict of `delimitVerdict_of_ends`, the class read off the function code. -/
theorem rtuDelimitResult : Obligations.RtuDelimitResult := by
  refine ⟨encodingRule_rtuDelimit, fun _ => badArgPastBuffer_of_withInput _ (fun _ => rfl), ?_⟩
  intro s fc inp h
  exact ⟨fun hfc => delimitVerdict_rtuDelimit h (responseClass_of_mem_readBc fc hfc),
    fun hfc => delimitVerdict_rtuDelimit h (responseClass_of_mem_fixed8 fc hfc),
    fun hfc => delimitVerdict_rtuDelimit h (responseClass_of_not_mem hfc)⟩

/-! ## Accepted frames -/

theorem crcOk_iff {s : List Byte} : crcOk s = true ↔ 3 ≤ s.length ∧ crc16Of (frameBody s) = frameTrailer s := by
  simp [crcOk]

/-- RTU_DECODE accepts only CRC-valid frames of four bytes or more, with their slave id and PDU as results. -/
theorem rtuDecode_of_accepted {inp : List Byte}
    (h : (rtuDecode inp).status = .ok ∨ (rtuDecode inp).status = .exceptionFrame) :
    4 ≤ inp.length ∧ crcOk inp = true ∧ (rtuDecode inp).res0 = zext (byteAt inp 0) ∧
      (rtuDecode inp).out = slice inp 1 (inp.length - 2) := by
  by_cases h4 : 4 ≤ inp.length
  case neg =>
    rw [rtuDecode_of_short (by omega)] at h
    simp at h
  by_cases hcrc : crc16Of (frameBody inp) = frameTrailer inp
  case neg =>
    rw [rtuDecode_of_mismatch h4 hcrc] at h
    simp at h
  refine ⟨h4, crcOk_iff.2 ⟨by omega, hcrc⟩, ?_⟩
  cases hx : isExceptionCode (byteAt inp 1) with
  | false => simp [rtuDecode_of_plain h4 hcrc hx]
  | true =>
    by_cases h5 : 5 ≤ inp.length
    · simp [rtuDecode_of_exception h5 hcrc hx]
    · rw [rtuDecode_of_shortException (by omega) hcrc hx] at h
      simp at h

/-- The body of a frame is its slave id and its PDU. -/
theorem frameBody_eq_cons {s : List Byte} (h : 3 ≤ s.length) :
    frameBody s = byteAt s 0 :: slice s 1 (s.length - 2) := by
  have hpos : 0 < (s.take (s.length - 2)).length := by
    rw [List.length_take]
    omega
  calc frameBody s = (s.take (s.length - 2))[0] :: slice s 1 (s.length - 2) := List.drop_eq_getElem_cons hpos
    _ = byteAt s 0 :: slice s 1 (s.length - 2) := by
      rw [List.getElem_take, byteAt_eq_getElem s 0 (by omega)]

/-- A CRC-valid frame is what the encoder makes of its own slave id and PDU. -/
theorem withCrc_slave_pdu_of_crcOk {s : List Byte} (h : crcOk s = true) :
    withCrc (byteAt s 0 :: slice s 1 (s.length - 2)) = s := by
  rw [← frameBody_eq_cons (crcOk_iff.1 h).1]
  exact withCrc_frameBody_of_crcOk h

/-! ## Produced frames -/

theorem le_injective : Function.Injective le := by
  intro v w h
  obtain ⟨hlo, hhi⟩ : lo v = lo w ∧ hi v = hi w := by simpa [le] using h
  rw [← le16_lo_hi v, hlo, hhi, le16_lo_hi]

@[simp] theorem frameBody_withCrc (body : List Byte) : frameBody (withCrc body) = body := by
  simp [frameBody, slice, withCrc]

@[simp] theorem frameTrailer_withCrc (body : List Byte) : frameTrailer (withCrc body) = crc16Of body := by
  have h := frameBody_append_le_frameTrailer (s := withCrc body) (by simp)
  rw [frameBody_withCrc] at h
  exact le_injective (List.append_cancel_left h)

/-- The frame of a slave id and a PDU that is not empty has the slave id first, then the PDU's function code, and
between slave id and CRC the whole PDU. -/
theorem withCrc_fields (a : Byte) {p : List Byte} (hp : 0 < p.length) :
    byteAt (withCrc (a :: p)) 0 = a ∧ byteAt (withCrc (a :: p)) 1 = byteAt p 0 ∧
      slice (withCrc (a :: p)) 1 ((withCrc (a :: p)).length - 2) = p := by
  have hbody := frameBody_eq_cons (s := withCrc (a :: p)) (by simp)
  rw [frameBody_withCrc] at hbody
  obtain ⟨hslave, hpdu⟩ := List.cons.inj hbody
  refine ⟨hslave.symm, ?_, hpdu.symm⟩
  cases p with
  | nil => exact absurd hp (Nat.lt_irrefl 0)
  | cons x xs => rfl

theorem rtuDecode_withCrc_of_plain (a : Byte) {p : List Byte} (hp : 0 < p.length)
    (hx : isExceptionCode (byteAt p 0) = false) :
    rtuDecode (withCrc (a :: p)) = ⟨.ok, zext a, zext (byteAt p 0), 0#16, p⟩ := by
  obtain ⟨hslave, hcode, hpdu⟩ := withCrc_fields a hp
  rw [rtuDecode_of_plain (by simpa using Nat.succ_le_of_lt hp) (by simp) (by rwa [hcode]), hslave, hcode, hpdu]

theorem rtuDecode_withCrc_of_exception (a : Byte) {p : List Byte} (hp : 2 ≤ p.length)
    (hx : isExceptionCode (byteAt p 0) = true) : (rtuDecode (withCrc (a :: p))).status = .exceptionFrame := by
  obtain ⟨-, hcode, -⟩ := withCrc_fields a (p := p) (by omega)
  rw [rtuDecode_of_exception (by simpa using hp) (by simp) (by rwa [hcode])]

theorem rtuDecode_withCrc_of_shortException (a : Byte) {p : List Byte} (hp : p.length = 1)
    (hx : isExceptionCode (byteAt p 0) = true) : (rtuDecode (withCrc (a :: p))).status = .tooShort := by
  obtain ⟨-, hcode, -⟩ := withCrc_fields a (p := p) (by omega)
  rw [rtuDecode_of_shortException (by simp [hp]) (by simp) (by rwa [hcode]), raised_status]

/-! ## Round trip (R79) -/

/-- RTU_ENCODE on an accepted frame's slave id and PDU makes the frame again. -/
theorem rtuEncode_of_accepted {cap : Nat} {inp : List Byte}
    (h : (rtuDecode inp).status = .ok ∨ (rtuDecode inp).status = .exceptionFrame) (hcap : inp.length ≤ cap) :
    (rtuEncode cap ((rtuDecode inp).res0.setWidth 8) (rtuDecode inp).out).status = .ok ∧
      (rtuEncode cap ((rtuDecode inp).res0.setWidth 8) (rtuDecode inp).out).out = inp := by
  obtain ⟨h4, hcrc, hslave, hpdu⟩ := rtuDecode_of_accepted h
  have hwidth : (zext (byteAt inp 0)).setWidth 8 = byteAt inp 0 := by simp [zext]
  have hlen : (slice inp 1 (inp.length - 2)).length = inp.length - 3 := by
    rw [slice_length]
    omega
  rw [hslave, hwidth, hpdu, rtuEncode_of_fits (by omega) (by omega)]
  exact ⟨rfl, withCrc_slave_pdu_of_crcOk hcrc⟩

/-- Settles O33: `rtuEncode_of_accepted` one way, the three cases of `rtuDecode` on a produced frame the other. -/
theorem rtuRoundTrip : Obligations.RtuRoundTrip := by
  refine ⟨?encodeOfDecode, ?decodeOfEncode⟩
  case encodeOfDecode =>
    intro s t u inp p hs ht hacc hp hu hcap
    obtain ⟨hstatus, hres0, -, -, -, hout⟩ := (ends_rtuDecode hs).shows ht
    have hpdu : p = (rtuDecode inp).out := Option.some.inj (hp.symm.trans hout)
    rw [hstatus] at hacc
    have hfits : inp.length ≤ bufCap u := by
      rw [bufCap, hcap]
      exact hs.length_le
    obtain ⟨hok, hframe⟩ := rtuEncode_of_accepted hacc hfits
    obtain ⟨v, hv, ⟨hvstatus, -, -, -, -, hvout⟩, -⟩ := ends_rtuEncode (t.res0.setWidth 8) hu
    rw [hres0, hpdu] at hvstatus hvout
    exact ⟨v, hv, hvstatus.trans hok, hvout.trans (congrArg some hframe)⟩
  case decodeOfEncode =>
    intro s t u a p f hs ht hok hf hu
    obtain ⟨hstatus, -, -, -, -, hout⟩ := (ends_rtuEncode a hs).shows ht
    obtain ⟨hp, hframe⟩ := rtuEncode_of_ok (hstatus.symm.trans hok)
    obtain rfl : f = withCrc (a :: p) := (Option.some.inj (hf.symm.trans hout)).trans hframe
    obtain ⟨v, hv, ⟨hvstatus, hres0, hres1, -, -, hvout⟩, -⟩ := ends_rtuDecode hu
    refine ⟨v, hv, ?plain, ?exception, ?shortException⟩
    case plain =>
      intro hx
      rw [rtuDecode_withCrc_of_plain a hp hx] at hvstatus hres0 hres1 hvout
      exact ⟨hvstatus, hres0, hres1, hvout⟩
    case exception => exact fun hx h2 => hvstatus.trans (rtuDecode_withCrc_of_exception a h2 hx)
    case shortException => exact fun hx h1 => hvstatus.trans (rtuDecode_withCrc_of_shortException a h1 hx)

/-! ## Corruption (R80) -/

/-- One changed byte changes the CRC: a step is one-to-one in the byte and, from there on, in the register. -/
theorem crcOver_set_ne {s : List Byte} {k : Nat} {b : Byte} (c : Word) (hk : k < s.length) (hb : b ≠ byteAt s k) :
    crcOver c (s.set k b) ≠ crcOver c s := by
  induction s generalizing c k with
  | nil => exact absurd hk (Nat.not_lt_zero k)
  | cons x s ih =>
    cases k with
    | zero => exact fun h => hb (crcStep_injective_byte c (crcOver_injective_register s h))
    | succ k => exact ih (crcStep c x) (Nat.lt_of_succ_lt_succ hk) hb

/-- A CRC-valid frame with one byte changed is not CRC-valid: both would have the residue 0 (R66). -/
theorem crcOk_set_ne {s : List Byte} {k : Nat} {b : Byte} (h : crcOk s = true) (hk : k < s.length)
    (hb : b ≠ byteAt s k) : crcOk (s.set k b) ≠ true := by
  intro hset
  exact crcOver_set_ne crcInitial hk hb ((crc16Of_of_crcOk hset).trans (crc16Of_of_crcOk h).symm)

/-- Settles O34: an accepted frame is CRC-valid, the changed one is as long and is not. -/
theorem singleByteCorruptionIsRejected : Obligations.SingleByteCorruptionIsRejected := by
  intro s t u inp k b hs ht hacc hk hb hu
  obtain ⟨hstatus, -⟩ := (ends_rtuDecode hs).shows ht
  rw [hstatus] at hacc
  obtain ⟨h4, hcrc, -⟩ := rtuDecode_of_accepted hacc
  have hlen : 4 ≤ (inp.set k b).length := by rwa [List.length_set]
  have hbad : crc16Of (frameBody (inp.set k b)) ≠ frameTrailer (inp.set k b) :=
    fun heq => crcOk_set_ne hcrc hk hb (crcOk_iff.2 ⟨by omega, heq⟩)
  obtain ⟨v, hv, ⟨hvstatus, -⟩, -⟩ := ends_rtuDecode hu
  rw [rtuDecode_of_mismatch hlen hbad] at hvstatus
  exact ⟨v, hv, hvstatus⟩

end Sys2Proof.Machine
end

section
/-! The MBAP commands (spec/42_mbap.md): what MBAP_PARSE (R88), MBAP_BUILD (R89), MBAP_EXCEPTION (R90), RTU_FROM_MBAP
(R91) and MBAP_FROM_RTU (R92) answer, the round trip of parser and builder (R93), and the echoed transaction id (R94). -/

namespace Sys2Proof.Machine

/-! ## Encodings -/

/-- An opcode whose mask leaves A and D free (rule R48). -/
theorem encodingRule_of_onlyAD (o : Opcode) {i : CommandWord → Instr} (hm : opcodeMask o = 0xFFFF0000FFFF00FF#64)
    (hi : ∀ w, i w = instrOf o (fieldA w) (fieldB w) (fieldC w) (fieldD w) (fieldE w)) :
    EncodingRule (opcodeByte o) (fun w => fieldB w = 0 ∧ fieldC w = 0 ∧ fieldE w = 0) i := by
  refine encodingRule_of_opcode o (fun w => ?_) hi
  rw [hm]
  show _ ↔ fieldA w &&& 0#8 = 0#8 ∧ fieldB w &&& BitVec.allOnes 8 = 0#8 ∧
    fieldC w &&& BitVec.allOnes 8 = 0#8 ∧ fieldD w &&& 0#16 = 0#16 ∧ fieldE w &&& BitVec.allOnes 16 = 0#16
  simp only [BitVec.and_allOnes, BitVec.and_zero, true_and]
  rfl

/-- MBAP_FROM_RTU leaves A, B and D free (R47). -/
theorem encodingRule_mbapFromRtu :
    EncodingRule 0x24#8 (fun w => fieldC w = 0 ∧ fieldE w = 0)
      (fun w => .mbapFromRtu (fieldA w) (fieldB w) (fieldD w)) := by
  refine encodingRule_of_opcode .mbapFromRtu (fun w => ?_) (fun _ => rfl)
  show _ ↔ fieldA w &&& 0#8 = 0#8 ∧ fieldB w &&& 0#8 = 0#8 ∧
    fieldC w &&& BitVec.allOnes 8 = 0#8 ∧ fieldD w &&& 0#16 = 0#16 ∧ fieldE w &&& BitVec.allOnes 16 = 0#16
  simp only [BitVec.and_allOnes, BitVec.and_zero, true_and]
  rfl

theorem and_FF00_eq_be16_hi (v : Word) : v &&& 0xFF00#16 = be16 (hi v) 0#8 := by
  have hhi : hi (v &&& 0xFF00#16) = hi v :=
    BitVec.extractLsb'_and.trans (BitVec.and_allOnes (x := hi v))
  have hlo : lo (v &&& 0xFF00#16) = 0#8 :=
    BitVec.extractLsb'_and.trans (BitVec.and_zero (x := lo v))
  rw [← be16_hi_lo (v &&& 0xFF00#16), hhi, hlo]

theorem and_FF00_eq_zero_iff (v : Word) : v &&& 0xFF00#16 = 0#16 ↔ hi v = 0#8 := by
  rw [and_FF00_eq_be16_hi]
  constructor
  · intro h
    exact (be16_injective (x' := 0#8) (y' := 0#8) h).1
  · intro h
    rw [h]
    rfl

/-- MBAP_EXCEPTION reserves only E[15:8] (R47, R50). -/
theorem encodingRule_mbapException :
    EncodingRule 0x22#8 (fun w => (fieldE w).extractLsb' 8 8 = 0)
      (fun w => .mbapException (fieldA w) (fieldB w) (fieldC w) (fieldD w) (fieldE w)) := by
  refine encodingRule_of_opcode .mbapException (fun w => ?_) (fun _ => rfl)
  show _ ↔ fieldA w &&& 0#8 = 0#8 ∧ fieldB w &&& 0#8 = 0#8 ∧ fieldC w &&& 0#8 = 0#8 ∧
    fieldD w &&& 0#16 = 0#16 ∧ fieldE w &&& 0xFF00#16 = 0#16
  simp only [BitVec.and_zero, true_and, and_FF00_eq_zero_iff]
  rfl

/-! ## The commands on a readable input -/

theorem ends_mbapParse {s : State} {inp : List Byte} (h : InputIs s inp) :
    Ends (exec .mbapParse s) s (mbapParse s.cfgMbapLenMax.toNat inp) := by
  have hrun : exec .mbapParse s = complete (mbapParse s.cfgMbapLenMax.toNat inp) s := withInput_of_inputIs h _
  rw [hrun]
  exact ends_complete _ s (Nat.lt_of_le_of_lt (mbapParse_out_length _ _) h.length_lt)

theorem ends_mbapBuild {s : State} {inp : List Byte} (u : Byte) (tid : Word) (h : InputIs s inp) :
    Ends (exec (.mbapBuild u tid) s) s (mbapBuild (bufCap s) u tid inp) := by
  have hrun : exec (.mbapBuild u tid) s = complete (mbapBuild (bufCap s) u tid inp) s := withInput_of_inputIs h _
  rw [hrun]
  exact ends_complete _ s (Nat.lt_of_le_of_lt (mbapBuild_out_length _ _ _ _) (bufCap_lt s))

/-- MBAP_EXCEPTION reads no input: it ends so from every state. -/
theorem ends_mbapException (s : State) (u f c : Byte) (tid e : Word) :
    Ends (exec (.mbapException u f c tid e) s) s (mbapException u f c tid (lo e)) :=
  ends_complete _ s (Nat.lt_of_le_of_lt (mbapException_out_length _ _ _ _ _) (by decide))

theorem ends_rtuFromMbap {s : State} {inp : List Byte} (h : InputIs s inp) :
    Ends (exec .rtuFromMbap s) s (rtuFromMbap (bufCap s) s.cfgMbapLenMax.toNat (wrnorm s) inp) := by
  have hrun : exec .rtuFromMbap s = complete (rtuFromMbap (bufCap s) s.cfgMbapLenMax.toNat (wrnorm s) inp) s :=
    withInput_of_inputIs h _
  rw [hrun]
  exact ends_complete _ s (Nat.lt_of_le_of_lt (rtuFromMbap_out_length _ _ _ _) (bufCap_lt s))

theorem mbapFromRtu_out_length_lt (s : State) (u f : Byte) (tid : Word) (inp : List Byte) :
    (mbapFromRtu (bufCap s) u f tid inp).out.length < 65536 :=
  Nat.lt_of_le_of_lt (mbapFromRtu_out_length _ _ _ _ _) (max_lt (by decide) (bufCap_lt s))

theorem ends_mbapFromRtu {s : State} {inp : List Byte} (u f : Byte) (tid : Word) (h : InputIs s inp) :
    Ends (exec (.mbapFromRtu u f tid) s) s (mbapFromRtu (bufCap s) u f tid inp) := by
  have hrun : exec (.mbapFromRtu u f tid) s = complete (mbapFromRtu (bufCap s) u f tid inp) s :=
    withInput_of_inputIs h _
  rw [hrun]
  exact ends_complete _ s (mbapFromRtu_out_length_lt s u f tid inp)

/-! ## MBAP_PARSE (R88) -/

theorem mbapParse_of_short {lenMax : Nat} {inp : List Byte} (h : inp.length < 7) :
    mbapParse lenMax inp = raisedWith .needMore 0#16 0#16 0#16 := if_pos h

theorem mbapParse_of_illegalLength {lenMax : Nat} {inp : List Byte} (h7 : 7 ≤ inp.length)
    (hlen : mbapLen inp = 0 ∨ lenMax < mbapLen inp) :
    mbapParse lenMax inp = raisedWith .malformedFrame (mbapTid inp) (word inp.length) 0#16 := by
  rw [mbapParse, if_neg (by omega), if_pos hlen]

theorem mbapParse_of_emptyPdu {lenMax : Nat} {inp : List Byte} (h7 : 7 ≤ inp.length) (hlen : mbapLen inp = 1)
    (hmax : mbapLen inp ≤ lenMax) :
    mbapParse lenMax inp = raisedWith .malformedFrame (mbapTid inp) 7#16 0#16 := by
  rw [mbapParse, if_neg (by omega), if_neg (by omega), if_pos hlen]

theorem mbapParse_of_incomplete {lenMax : Nat} {inp : List Byte} (h7 : 7 ≤ inp.length) (h2 : 2 ≤ mbapLen inp)
    (hmax : mbapLen inp ≤ lenMax) (hmore : inp.length < 6 + mbapLen inp) :
    mbapParse lenMax inp = raisedWith .needMore (mbapTid inp) (word (6 + mbapLen inp)) 0#16 := by
  rw [mbapParse, if_neg (by omega), if_neg (by omega), if_neg (by omega), if_pos hmore]

theorem mbapParse_of_foreignProtocol {lenMax : Nat} {inp : List Byte} (h2 : 2 ≤ mbapLen inp)
    (hmax : mbapLen inp ≤ lenMax) (hfull : 6 + mbapLen inp ≤ inp.length) (hpid : mbapPid inp ≠ 0#16) :
    mbapParse lenMax inp = raisedWith .malformedFrame (mbapTid inp) (word (6 + mbapLen inp)) 0#16 := by
  rw [mbapParse, if_neg (by omega), if_neg (by omega), if_neg (by omega), if_neg (by omega), if_pos hpid]

theorem mbapParse_of_complete {lenMax : Nat} {inp : List Byte} (h2 : 2 ≤ mbapLen inp)
    (hmax : mbapLen inp ≤ lenMax) (hfull : 6 + mbapLen inp ≤ inp.length) (hpid : mbapPid inp = 0#16) :
    mbapParse lenMax inp = ⟨.ok, mbapTid inp, word (6 + mbapLen inp), zext (mbapUnit inp), mbapPdu inp⟩ := by
  rw [mbapParse, if_neg (by omega), if_neg (by omega), if_neg (by omega), if_neg (by omega),
    if_neg (not_not_intro hpid)]

/-- MBAP_PARSE completes OK only on a complete frame of protocol 0 with a PDU. -/
theorem mbapParse_of_ok {lenMax : Nat} {inp : List Byte} (h : (mbapParse lenMax inp).status = .ok) :
    2 ≤ mbapLen inp ∧ 6 + mbapLen inp ≤ inp.length ∧ mbapPid inp = 0#16 ∧
      mbapParse lenMax inp = ⟨.ok, mbapTid inp, word (6 + mbapLen inp), zext (mbapUnit inp), mbapPdu inp⟩ := by
  by_cases h7 : 7 ≤ inp.length
  case neg =>
    rw [mbapParse_of_short (by omega)] at h
    cases h
  by_cases hbad : mbapLen inp = 0 ∨ lenMax < mbapLen inp
  case pos =>
    rw [mbapParse_of_illegalLength h7 hbad] at h
    cases h
  by_cases h1 : mbapLen inp = 1
  case pos =>
    rw [mbapParse_of_emptyPdu h7 h1 (by omega)] at h
    cases h
  by_cases hfull : 6 + mbapLen inp ≤ inp.length
  case neg =>
    rw [mbapParse_of_incomplete h7 (by omega) (by omega) (by omega)] at h
    cases h
  by_cases hpid : mbapPid inp = 0#16
  case neg =>
    rw [mbapParse_of_foreignProtocol (by omega) (by omega) hfull hpid] at h
    cases h
  exact ⟨by omega, hfull, hpid, mbapParse_of_complete (by omega) (by omega) hfull hpid⟩

/-- Settles O39: the six clauses are the six equations of `mbapParse`. -/
theorem mbapParseResult : Obligations.MbapParseResult := by
  refine ⟨encodingRule_of_allOnes .mbapParse rfl (fun _ => rfl), badArgPastBuffer_of_withInput _ (fun _ => rfl), ?_⟩
  rintro s inp t pid len h rfl rfl rfl
  have hends := ends_mbapParse h
  refine ⟨?short, ?illegalLength, ?emptyPdu, ?incomplete, ?foreignProtocol, ?complete⟩
  case short =>
    intro h7
    rwa [mbapParse_of_short h7] at hends
  case illegalLength =>
    intro h7 hlen
    rwa [mbapParse_of_illegalLength h7 hlen] at hends
  case emptyPdu =>
    intro h7 hlen hmax
    rwa [mbapParse_of_emptyPdu h7 hlen hmax] at hends
  case incomplete =>
    intro h7 h2 hmax hmore
    rwa [mbapParse_of_incomplete h7 h2 hmax hmore] at hends
  case foreignProtocol =>
    intro h2 hmax hfull hpid
    rwa [mbapParse_of_foreignProtocol h2 hmax hfull hpid] at hends
  case complete =>
    intro h2 hmax hfull hpid
    rwa [mbapParse_of_complete h2 hmax hfull hpid] at hends

/-! ## MBAP_BUILD (R89) -/

theorem mbapBuild_of_length_eq_zero {cap : Nat} {u : Byte} {tid : Word} {inp : List Byte} (h : inp.length = 0) :
    mbapBuild cap u tid inp = raised .badArg := if_pos h

theorem mbapBuild_of_overflow {cap : Nat} {u : Byte} {tid : Word} {inp : List Byte} (h0 : 0 < inp.length)
    (h : cap < inp.length + 7) : mbapBuild cap u tid inp = raised .overflow := by
  rw [mbapBuild, if_neg (by omega), if_pos h]

theorem mbapBuild_of_fits {cap : Nat} {u : Byte} {tid : Word} {inp : List Byte} (h0 : 0 < inp.length)
    (h : inp.length + 7 ≤ cap) :
    mbapBuild cap u tid inp = ⟨.ok, tid, word (1 + inp.length), 0#16, mbapFrame tid u inp⟩ := by
  rw [mbapBuild, if_neg (by omega), if_neg (by omega)]

/-- Settles O41: the three clauses are the three equations of `mbapBuild`. -/
theorem mbapBuildResult : Obligations.MbapBuildResult := by
  refine ⟨encodingRule_of_onlyAD .mbapBuild rfl (fun _ => rfl),
    fun _ _ => badArgPastBuffer_of_withInput _ (fun _ => rfl), ?_⟩
  rintro s u tid len inp h rfl
  have hends := ends_mbapBuild u tid h
  refine ⟨?empty, ?overflow, ?fits⟩
  case empty =>
    rintro rfl
    rwa [mbapBuild_of_length_eq_zero rfl] at hends
  case overflow =>
    intro hne hcap
    rwa [mbapBuild_of_overflow (List.length_pos_iff.2 hne) hcap] at hends
  case fits =>
    intro hne hcap
    rwa [mbapBuild_of_fits (List.length_pos_iff.2 hne) hcap] at hends

/-! ## MBAP_EXCEPTION (R90) -/

theorem mbapException_of_code {u f c device code : Byte} {tid : Word} {kind : FailureKind}
    (hkind : failureKind c = some kind) (hcode : responseCode kind device = some code) :
    mbapException u f c tid device = ⟨.ok, tid, zext code, 0#16, excFrame tid u f code⟩ := by
  simp only [mbapException, hkind, hcode]

theorem mbapException_of_noResponse {u f c device : Byte} {tid : Word} {kind : FailureKind}
    (hkind : failureKind c = some kind) (hcode : responseCode kind device = none) :
    mbapException u f c tid device = raisedWith .noResponse tid 0#16 0#16 := by
  simp only [mbapException, hkind, hcode]

theorem mbapException_of_invalidKind {u f c device : Byte} {tid : Word} (hkind : failureKind c = none) :
    mbapException u f c tid device = raised .badArg := by
  simp only [mbapException, hkind]

theorem failureKind_of_invalid {c : Byte} (h : c = 0x00#8 ∨ 0x07 ≤ c.toNat) : failureKind c = none := by
  have hvalid : ∀ k ∈ [0x01#8, 0x02#8, 0x03#8, 0x04#8, 0x05#8, 0x06#8], ¬ (k = 0x00#8 ∨ 0x07 ≤ k.toNat) := by decide
  have hc : c ∉ [0x01#8, 0x02#8, 0x03#8, 0x04#8, 0x05#8, 0x06#8] := fun hmem => hvalid c hmem h
  simp only [List.mem_cons, List.not_mem_nil, or_false, not_or] at hc
  simp [failureKind, hc]

theorem lo_zext (b : Byte) : lo (zext b) = b := by
  unfold lo zext
  ext i hi
  simp [hi, show i < 16 by omega, BitVec.getLsbD_eq_getElem]

/-- Settles O42: the kind fixes the equation of `mbapException`, for every device code. -/
theorem mbapExceptionResult : Obligations.MbapExceptionResult := by
  refine ⟨encodingRule_mbapException, ?_⟩
  rintro s u f c k t e rfl
  have hends := ends_mbapException s u f c t (zext k)
  rw [lo_zext] at hends
  refine ⟨?gateway, ?device, ?silent, ?invalid⟩
  case gateway =>
    rintro (rfl | rfl | rfl) <;> rwa [mbapException_of_code rfl rfl] at hends
  case device =>
    rintro rfl
    rwa [mbapException_of_code rfl rfl] at hends
  case silent =>
    rintro (rfl | rfl) <;> rwa [mbapException_of_noResponse rfl rfl] at hends
  case invalid =>
    intro hc
    rwa [mbapException_of_invalidKind (failureKind_of_invalid hc)] at hends

/-! ## RTU_FROM_MBAP (R91) -/

theorem normalise_of_rewritten {on : Bool} {p : List Byte} (hon : on = true) (h5 : p.length = 5)
    (hfc : byteAt p 0 = 0x06#8) :
    normalise on p = [0x10#8, byteAt p 1, byteAt p 2, 0x00#8, 0x01#8, 0x02#8, byteAt p 3, byteAt p 4] :=
  if_pos ⟨hon, h5, hfc⟩

theorem normalise_of_kept {on : Bool} {p : List Byte} (h : on = false ∨ p.length ≠ 5 ∨ byteAt p 0 ≠ 0x06#8) :
    normalise on p = p := by
  refine if_neg ?_
  rintro ⟨hon, h5, hfc⟩
  rcases h with hoff | hlen | hother
  · exact Bool.false_ne_true (hoff.symm.trans hon)
  · exact hlen h5
  · exact hother hfc

/-- R95's two cases fix `normalise`. -/
theorem eq_normalise {on : Bool} {p q : List Byte}
    (hrewritten : on = true → p.length = 5 → byteAt p 0 = 0x06#8 →
      q = [0x10#8, byteAt p 1, byteAt p 2, 0x00#8, 0x01#8, 0x02#8, byteAt p 3, byteAt p 4])
    (hkept : on = false ∨ p.length ≠ 5 ∨ byteAt p 0 ≠ 0x06#8 → q = p) : q = normalise on p := by
  by_cases h : on = true ∧ p.length = 5 ∧ byteAt p 0 = 0x06#8
  · obtain ⟨hon, h5, hfc⟩ := h
    rw [normalise_of_rewritten hon h5 hfc, hrewritten hon h5 hfc]
  · have hcases : on = false ∨ p.length ≠ 5 ∨ byteAt p 0 ≠ 0x06#8 := by
      rwa [not_and_or, not_and_or, Bool.not_eq_true] at h
    rw [normalise_of_kept hcases, hkept hcases]

/-- Only a 5-byte PDU grows, to 8 bytes. -/
theorem normalise_length_le_add_three (on : Bool) (p : List Byte) : (normalise on p).length ≤ p.length + 3 := by
  unfold normalise
  split
  · rename_i h
    obtain ⟨-, h5, -⟩ := h
    simp [h5]
  · omega

theorem mbapPdu_length {inp : List Byte} (h : 6 + mbapLen inp ≤ inp.length) :
    (mbapPdu inp).length = mbapLen inp - 1 := by
  rw [mbapPdu, slice_length]
  omega

theorem rtuFromMbap_of_not_ok {cap lenMax : Nat} {on : Bool} {inp : List Byte}
    (h : (mbapParse lenMax inp).status ≠ .ok) :
    rtuFromMbap cap lenMax on inp =
      raisedWith (mbapParse lenMax inp).status (mbapParse lenMax inp).res0 (mbapParse lenMax inp).res1 0#16 := if_pos h

/-- The RTU frame is never longer than the MBAP frame it is made from, so it fits where the request did (R91). -/
theorem rtuFromMbap_of_ok {cap lenMax : Nat} {on : Bool} {inp : List Byte}
    (h : (mbapParse lenMax inp).status = .ok) (hcap : inp.length ≤ cap) :
    rtuFromMbap cap lenMax on inp = ⟨.ok, mbapTid inp, word (6 + mbapLen inp),
      be16 (byteAt (mbapPdu inp) 0) (mbapUnit inp), withCrc (mbapUnit inp :: normalise on (mbapPdu inp))⟩ := by
  obtain ⟨h2, hfull, -, -⟩ := mbapParse_of_ok h
  have hpdu := mbapPdu_length hfull
  have hnorm := normalise_length_le_add_three on (mbapPdu inp)
  rw [rtuFromMbap, if_neg (not_not_intro h), if_neg (by omega), BitVec.or_comm]
  rfl

/-- Settles O43: MBAP_PARSE's state shows `mbapParse`, from which `rtuFromMbap` is made. -/
theorem rtuFromMbapResult : Obligations.RtuFromMbapResult := by
  refine ⟨encodingRule_of_allOnes .rtuFromMbap rfl (fun _ => rfl), badArgPastBuffer_of_withInput _ (fun _ => rfl), ?_⟩
  intro s m inp h hm
  obtain ⟨hstatus, hres0, hres1, -, -, hout⟩ := (ends_mbapParse h).shows hm
  have hends := ends_rtuFromMbap h
  rw [hstatus, hres0, hres1, hout]
  refine ⟨?reported, ?translated⟩
  case reported =>
    intro hbad
    rwa [rtuFromMbap_of_not_ok hbad] at hends
  case translated =>
    rintro p q body hok hp hrewritten hkept rfl
    obtain ⟨-, -, -, hparse⟩ := mbapParse_of_ok hok
    rw [rtuFromMbap_of_ok hok h.length_le] at hends
    rw [hparse] at hp ⊢
    obtain rfl : mbapPdu inp = p := Option.some.inj hp
    obtain rfl : q = normalise (wrnorm s) (mbapPdu inp) := eq_normalise hrewritten hkept
    exact hends

/-! ## MBAP_FROM_RTU (R92) -/

section
variable {cap : Nat} {u f : Byte} {tid : Word} {inp : List Byte}

theorem mbapFromRtu_of_overflow (h : (rtuDecode inp).status = .ok) (hcap : cap < (rtuDecode inp).out.length + 7) :
    mbapFromRtu cap u f tid inp = raisedWith .overflow tid 0#16 0#16 := by
  rw [mbapFromRtu, if_pos h, if_pos hcap]

theorem mbapFromRtu_of_fits (h : (rtuDecode inp).status = .ok) (hcap : (rtuDecode inp).out.length + 7 ≤ cap) :
    mbapFromRtu cap u f tid inp =
      ⟨.ok, tid, word (1 + (rtuDecode inp).out.length), 0#16, mbapFrame tid u (rtuDecode inp).out⟩ := by
  rw [mbapFromRtu, if_pos h, if_neg (by omega)]

theorem mbapFromRtu_of_exception (h : (rtuDecode inp).status = .exceptionFrame) :
    mbapFromRtu cap u f tid inp =
      ⟨.exceptionFrame, tid, zext (byteAt inp 2), 0#16, excFrame tid u f (byteAt inp 2)⟩ := by
  rw [mbapFromRtu, if_neg (by simp [h]), if_pos h]

/-- A response that RTU_DECODE does not accept becomes the gateway exception. -/
theorem mbapFromRtu_of_rejected (h : (rtuDecode inp).status = .crcMismatch ∨ (rtuDecode inp).status = .tooShort) :
    mbapFromRtu cap u f tid inp =
      ⟨(rtuDecode inp).status, tid, zext gatewayCode, 0#16, excFrame tid u f gatewayCode⟩ := by
  rcases h with h | h <;> rw [mbapFromRtu, if_neg (by simp [h]), if_neg (by simp [h])]

end

/-- Settles O45: RTU_DECODE's state shows `rtuDecode`, whose verdict fixes the equation of `mbapFromRtu`. -/
theorem mbapFromRtuResult : Obligations.MbapFromRtuResult := by
  refine ⟨encodingRule_mbapFromRtu, fun _ _ _ => badArgPastBuffer_of_withInput _ (fun _ => rfl), ?_⟩
  intro s m u f tid inp h hm
  obtain ⟨hstatus, -, -, -, -, hout⟩ := (ends_rtuDecode h).shows hm
  have hends := ends_mbapFromRtu u f tid h
  rw [hstatus, hout]
  refine ⟨?plain, ?exception, ?rejected, rtuDecode_status inp⟩
  case plain =>
    rintro p len hok hp rfl
    obtain rfl : (rtuDecode inp).out = p := Option.some.inj hp
    refine ⟨fun hcap => ?overflow, fun hcap => ?fits⟩
    case overflow => rwa [mbapFromRtu_of_overflow hok hcap] at hends
    case fits => rwa [mbapFromRtu_of_fits hok hcap] at hends
  case exception =>
    intro hx
    rwa [mbapFromRtu_of_exception hx] at hends
  case rejected =>
    intro hbad
    rwa [mbapFromRtu_of_rejected hbad] at hends

/-! ## Round trip (R93) -/

theorem take_eq_map_byteAt {s : List Byte} {n : Nat} (h : n ≤ s.length) :
    s.take n = (List.range n).map (byteAt s) := by
  apply List.ext_getElem
  · simp [h]
  · intro i hi _
    rw [List.length_take] at hi
    simp [byteAt_eq_getElem s i (by omega)]

theorem be_be16 (x y : Byte) : be (be16 x y) = [x, y] := by
  rw [be, hi_be16, lo_be16]

/-- A complete frame of protocol 0 is what the builder makes of its own transaction id, unit id and PDU. -/
theorem mbapFrame_of_parsed {inp : List Byte} (h2 : 2 ≤ mbapLen inp) (hfull : 6 + mbapLen inp ≤ inp.length)
    (hpid : mbapPid inp = 0#16) :
    mbapFrame (mbapTid inp) (mbapUnit inp) (mbapPdu inp) = inp.take (6 + mbapLen inp) := by
  have hlen : word (1 + (mbapPdu inp).length) = be16 (byteAt inp 4) (byteAt inp 5) := by
    rw [mbapPdu_length hfull, show 1 + (mbapLen inp - 1) = mbapLen inp by omega]
    exact (BitVec.ofNat_toNat _ _).trans (BitVec.setWidth_eq _)
  obtain ⟨hpid2, hpid3⟩ : byteAt inp 2 = 0x00#8 ∧ byteAt inp 3 = 0x00#8 := be16_injective hpid
  have hheader : inp.take 7 = [byteAt inp 0, byteAt inp 1, 0x00#8, 0x00#8, byteAt inp 4, byteAt inp 5, mbapUnit inp] := by
    rw [take_eq_map_byteAt (by omega)]
    show [byteAt inp 0, byteAt inp 1, byteAt inp 2, byteAt inp 3, byteAt inp 4, byteAt inp 5, mbapUnit inp] = _
    rw [hpid2, hpid3]
  calc mbapFrame (mbapTid inp) (mbapUnit inp) (mbapPdu inp)
      = inp.take 7 ++ mbapPdu inp := by
        rw [mbapFrame, mbapTid, hlen, be_be16, be_be16, hheader]
        rfl
    _ = (inp.take (6 + mbapLen inp)).take 7 ++ mbapPdu inp := by
        rw [List.take_take, min_eq_left (by omega)]
    _ = inp.take (6 + mbapLen inp) := List.take_append_drop 7 _

/-- Settles O46: the parsed PDU fits with its header because the frame did, and the frame is `mbapFrame_of_parsed`. -/
theorem mbapRoundTrip : Obligations.MbapRoundTrip := by
  intro s t u inp p hs ht hok hp hu hcap
  obtain ⟨hstatus, hres0, hres1, hres2, -, hout⟩ := (ends_mbapParse hs).shows ht
  obtain ⟨h2, hfull, hpid, hparse⟩ := mbapParse_of_ok (hstatus.symm.trans hok)
  rw [hparse] at hres0 hres1 hres2 hout
  obtain rfl : mbapPdu inp = p := Option.some.inj (hout.symm.trans hp)
  have hpdu := mbapPdu_length hfull
  have hfits : (mbapPdu inp).length + 7 ≤ bufCap u := by
    have hinp := hs.length_le
    rw [bufCap, hcap, ← bufCap]
    omega
  have hunit : (zext (mbapUnit inp)).setWidth 8 = mbapUnit inp := by simp [zext]
  have hconsumed : (word (6 + mbapLen inp)).toNat = 6 + mbapLen inp :=
    word_toNat (Nat.lt_of_le_of_lt hfull hs.length_lt)
  obtain ⟨v, hv, ⟨hvstatus, -, -, -, -, hvout⟩, -⟩ := ends_mbapBuild (mbapUnit inp) (mbapTid inp) hu
  rw [mbapBuild_of_fits (by omega) hfits] at hvstatus hvout
  refine ⟨v, ?_, hvstatus, ?_⟩
  · rw [hres0, hres2, hunit, hv]
  · rw [hres1, hconsumed, ← mbapFrame_of_parsed h2 hfull hpid, hvout]

/-! ## The transaction id (R94) -/

/-- The completion emits nothing, or a frame that begins with `tid`, which is also in RES0. -/
def EchoesTid (tid : Word) (c : Completion) : Prop := c.out = [] ∨ (c.out.take 2 = be tid ∧ c.res0 = tid)

theorem echoesTid_mbapBuild (cap : Nat) (u : Byte) (tid : Word) (inp : List Byte) :
    EchoesTid tid (mbapBuild cap u tid inp) := by
  unfold mbapBuild
  split
  · exact .inl rfl
  split
  · exact .inl rfl
  · exact .inr ⟨rfl, rfl⟩

theorem echoesTid_mbapException (u f c : Byte) (tid : Word) (device : Byte) :
    EchoesTid tid (mbapException u f c tid device) := by
  unfold mbapException
  split
  · exact .inl rfl
  split
  · exact .inl rfl
  · exact .inr ⟨rfl, rfl⟩

theorem echoesTid_mbapFromRtu (cap : Nat) (u f : Byte) (tid : Word) (inp : List Byte) :
    EchoesTid tid (mbapFromRtu cap u f tid inp) := by
  unfold mbapFromRtu
  split
  · split
    · exact .inl rfl
    · exact .inr ⟨rfl, rfl⟩
  split
  · exact .inr ⟨rfl, rfl⟩
  · exact .inr ⟨rfl, rfl⟩

/-- What R94 says of the state that a command answered. -/
theorem EchoesTid.of_shows {tid : Word} {t : State} {c : Completion} (hc : EchoesTid tid c) (ht : Shows t c) :
    ∃ out, outputBytes t = some out ∧ (out ≠ [] → out.take 2 = [hi tid, lo tid] ∧ t.res0 = tid) := by
  obtain ⟨-, hres0, -, -, -, hout⟩ := ht
  refine ⟨c.out, hout, fun hne => ?_⟩
  rcases hc with hnil | ⟨hframe, htid⟩
  · exact absurd hnil hne
  · exact ⟨hframe, hres0.trans htid⟩

/-- A command that reads the input shows its completion on that input, or BAD_ARG (R61). -/
theorem shows_of_withInput_next {s t : State} {c : List Byte → Completion}
    (hlen : ∀ inp, InputIs s inp → (c inp).out.length < 65536)
    (h : withInput s (fun inp => complete (c inp) s) = .next t) :
    (∃ inp, Shows t (c inp)) ∨ Shows t (raised .badArg) := by
  rcases withInput_cases s fun inp => complete (c inp) s with ⟨inp, hi, he⟩ | ⟨-, he⟩ | ⟨-, -, he⟩
  · exact .inl ⟨inp, (ends_complete (c inp) s (hlen inp hi)).shows (he.symm.trans h)⟩
  · exact .inr ((ends_complete (raised .badArg) s (by decide)).shows (he.symm.trans h))
  · cases he.symm.trans h

/-- Settles O47: each of the three completes with `EchoesTid`, and a BAD_ARG emits nothing. -/
theorem transactionIdIsEchoed : Obligations.TransactionIdIsEchoed := by
  rintro i tid s t (⟨u, rfl⟩ | ⟨u, f, c, e, rfl⟩ | ⟨u, f, rfl⟩) h
  · rcases shows_of_withInput_next
      (fun _ _ => Nat.lt_of_le_of_lt (mbapBuild_out_length _ _ _ _) (bufCap_lt s)) h with ⟨inp, ht⟩ | ht
    · exact (echoesTid_mbapBuild (bufCap s) u tid inp).of_shows ht
    · exact EchoesTid.of_shows (.inl rfl) ht
  · exact (echoesTid_mbapException u f c tid (lo e)).of_shows ((ends_mbapException s u f c tid e).shows h)
  · rcases shows_of_withInput_next (fun inp _ => mbapFromRtu_out_length_lt s u f tid inp) h with ⟨inp, ht⟩ | ht
    · exact (echoesTid_mbapFromRtu (bufCap s) u f tid inp).of_shows ht
    · exact EchoesTid.of_shows (.inl rfl) ht

end Sys2Proof.Machine
end

section
/-! Write normalisation (spec/43_write.md): what WRITE_NORM (R97) and WR_REG_FRAME (R98) answer, and the one frame that a
register write is on the wire (R99). -/

namespace Sys2Proof.Machine

/-! ## WRITE_NORM (R97) -/

theorem ends_writeNorm {s : State} {inp : List Byte} (h : InputIs s inp) :
    Ends (exec .writeNorm s) s (writeNorm (bufCap s) (wrnorm s) inp) := by
  have hrun : exec .writeNorm s = complete (writeNorm (bufCap s) (wrnorm s) inp) s := withInput_of_inputIs h _
  rw [hrun]
  exact ends_complete _ s (Nat.lt_of_le_of_lt (writeNorm_out_length _ _ _) (bufCap_lt s))

theorem writeNorm_of_length_eq_zero {cap : Nat} {on : Bool} {inp : List Byte} (h : inp.length = 0) :
    writeNorm cap on inp = raised .badArg := if_pos h

/-- A rewritten PDU is 8 bytes long, so it differs from its 5-byte input and fits every legal BUF_CAP. -/
theorem writeNorm_of_rewritten {cap : Nat} {on : Bool} {inp : List Byte} (hon : on = true) (h5 : inp.length = 5)
    (hfc : byteAt inp 0 = 0x06#8) (hcap : 8 ≤ cap) :
    writeNorm cap on inp = ⟨.ok, 1#16, 0#16, 0#16, normalise on inp⟩ := by
  have h8 : (normalise on inp).length = 8 := by
    rw [normalise_of_rewritten hon h5 hfc]
    rfl
  have hne : normalise on inp ≠ inp := by
    intro heq
    rw [heq] at h8
    omega
  rw [writeNorm, if_neg (by omega), if_neg (by omega), if_pos hne]

theorem writeNorm_of_kept {cap : Nat} {on : Bool} {inp : List Byte} (h0 : 0 < inp.length)
    (h : on = false ∨ inp.length ≠ 5 ∨ byteAt inp 0 ≠ 0x06#8) (hcap : inp.length ≤ cap) :
    writeNorm cap on inp = ⟨.ok, 0#16, 0#16, 0#16, inp⟩ := by
  rw [writeNorm, normalise_of_kept h, if_neg (by omega), if_neg (by omega), if_neg (not_not_intro rfl)]

/-- Settles O36: the three clauses are the equations of `writeNorm`; OVERFLOW is shut out, by BUF_CAP's legal range where
the PDU grows and by the input's own length where it is copied. -/
theorem writeNormResult : Obligations.WriteNormResult := by
  refine ⟨encodingRule_of_allOnes .writeNorm rfl (fun _ => rfl), badArgPastBuffer_of_withInput _ (fun _ => rfl), ?_⟩
  intro s inp h
  have hends : Ends _ s (writeNorm (bufCap s) (s.cfgCtrl.getLsbD 0) inp) := ends_writeNorm h
  refine ⟨?empty, ?rewritten, ?kept⟩
  case empty =>
    rintro rfl
    rwa [writeNorm_of_length_eq_zero rfl] at hends
  case rewritten =>
    rintro ah al vh vl rfl hon hcap
    have h8 : 8 ≤ bufCap s := by omega
    rwa [writeNorm_of_rewritten hon rfl rfl h8, normalise_of_rewritten hon rfl rfl] at hends
  case kept =>
    intro hne hcases
    rwa [writeNorm_of_kept (List.length_pos_iff.2 hne) hcases h.length_le] at hends

/-! ## WR_REG_FRAME (R98) -/

/-- WR_REG_FRAME reserves only B and C (R47). -/
theorem encodingRule_wrRegFrame :
    EncodingRule 0x14#8 (fun w => fieldB w = 0 ∧ fieldC w = 0)
      (fun w => .wrRegFrame (fieldA w) (fieldD w) (fieldE w)) := by
  refine encodingRule_of_opcode .wrRegFrame (fun w => ?_) (fun _ => rfl)
  show _ ↔ fieldA w &&& 0#8 = 0#8 ∧ fieldB w &&& BitVec.allOnes 8 = 0#8 ∧
    fieldC w &&& BitVec.allOnes 8 = 0#8 ∧ fieldD w &&& 0#16 = 0#16 ∧ fieldE w &&& 0#16 = 0#16
  simp only [BitVec.and_allOnes, BitVec.and_zero, true_and, and_true]
  rfl

/-- WR_REG_FRAME reads no input: it ends so from every state. -/
theorem ends_wrRegFrame (s : State) (a : Byte) (d e : Word) :
    Ends (exec (.wrRegFrame a d e) s) s (wrRegFrame (wrnorm s) a d e) :=
  ends_complete _ s (Nat.lt_of_le_of_lt (wrRegFrame_out_length _ _ _ _) (by decide))

theorem wrRegPdu_of_on (d e : Word) :
    wrRegPdu true d e = [0x10#8, hi d, lo d, 0x00#8, 0x01#8, 0x02#8, hi e, lo e] :=
  normalise_of_rewritten rfl rfl rfl

theorem wrRegPdu_of_off (d e : Word) : wrRegPdu false d e = [0x06#8, hi d, lo d, hi e, lo e] :=
  normalise_of_kept (.inl rfl)

/-- Settles O37: WRNORM fixes the PDU, and `ends_wrRegFrame` its frame. -/
theorem wrRegFrameResult : Obligations.WrRegFrameResult := by
  refine ⟨encodingRule_wrRegFrame, ?_⟩
  intro s a d e body
  have hends := ends_wrRegFrame s a d e
  refine ⟨?on, ?off⟩
  case on =>
    rintro hon rfl
    rwa [show wrnorm s = true from hon, wrRegFrame, wrRegPdu_of_on] at hends
  case off =>
    rintro hoff rfl
    rwa [show wrnorm s = false from hoff, wrRegFrame, wrRegPdu_of_off] at hends

/-! ## The three paths of a register write (R99) -/

theorem Ends.output_of_ok {r : Host.Outcome State Fault Refusal} {s : State} {c : Completion} (h : Ends r s c)
    (hok : c.status = .ok) : ∃ t, r = .next t ∧ t.status = .ok ∧ outputBytes t = some c.out := by
  obtain ⟨t, hr, ⟨hstatus, -, -, -, -, hout⟩, -⟩ := h
  exact ⟨t, hr, hstatus.trans hok, hout⟩

section
variable {tid : Word} {u : Byte} {p : List Byte}

/-- An MBAP frame written out, the two bytes of its length field as they stand. -/
theorem mbapFrame_of_lengthField {n : Nat} {x y : Byte} (hn : p.length = n) (hxy : be (word (1 + n)) = [x, y]) :
    mbapFrame tid u p = [hi tid, lo tid, 0x00#8, 0x00#8, x, y, u] ++ p := by
  rw [mbapFrame, hn, hxy]
  rfl

theorem mbapPid_mbapFrame : mbapPid (mbapFrame tid u p) = 0#16 := by
  show be16 0x00#8 0x00#8 = 0#16
  decide

theorem mbapLen_mbapFrame (h : 1 + p.length < 65536) : mbapLen (mbapFrame tid u p) = 1 + p.length := by
  show (be16 (hi (word (1 + p.length))) (lo (word (1 + p.length)))).toNat = 1 + p.length
  rw [be16_hi_lo, word_toNat h]

theorem mbapPdu_mbapFrame (h : 1 + p.length < 65536) : mbapPdu (mbapFrame tid u p) = p := by
  have hall : (mbapFrame tid u p).length ≤ 6 + (1 + p.length) := by
    rw [mbapFrame_length]
    omega
  rw [mbapPdu, mbapLen_mbapFrame h, slice, List.take_of_length_le hall]
  rfl

/-- The parser accepts every frame of rule R87 whose length field MBAP_LEN_MAX allows. -/
theorem mbapParse_mbapFrame_status {lenMax : Nat} (h0 : 0 < p.length) (hmax : 1 + p.length ≤ lenMax)
    (h : 1 + p.length < 65536) : (mbapParse lenMax (mbapFrame tid u p)).status = .ok := by
  have hlen := mbapLen_mbapFrame (tid := tid) (u := u) h
  rw [mbapParse_of_complete (by omega) (by omega) (by rw [hlen, mbapFrame_length]; omega) mbapPid_mbapFrame]

/-- RTU_FROM_MBAP on an allowed request of unit `u` and PDU `p` outputs the RTU frame of `u` and the normalised `p`. -/
theorem rtuFromMbap_of_request {s : State} {n : Nat} {x y : Byte} (hn : p.length = n) (hxy : be (word (1 + n)) = [x, y])
    (h0 : 0 < n) (h : InputIs s ([hi tid, lo tid, 0x00#8, 0x00#8, x, y, u] ++ p))
    (hmax : 1 + n ≤ s.cfgMbapLenMax.toNat) :
    ∃ t, exec .rtuFromMbap s = .next t ∧ t.status = .ok ∧
      outputBytes t = some (withCrc (u :: normalise (wrnorm s) p)) := by
  rw [← mbapFrame_of_lengthField hn hxy] at h
  subst hn
  have hlt : 1 + p.length < 65536 := Nat.lt_of_le_of_lt hmax s.cfgMbapLenMax.isLt
  have hends := ends_rtuFromMbap h
  rw [rtuFromMbap_of_ok (mbapParse_mbapFrame_status h0 hmax hlt) h.length_le, mbapPdu_mbapFrame hlt] at hends
  exact hends.output_of_ok rfl

end

/-- R96: the 0x10 request that a register write becomes is left alone when it passes again. -/
theorem normalise_wrRegPdu_of_on (on : Bool) (d e : Word) : normalise on (wrRegPdu true d e) = wrRegPdu true d e :=
  normalise_of_kept (.inr (.inl (by simp [wrRegPdu_of_on])))

/-- Settles O38: every path's frame is that of the slave and `wrRegPdu true`. The dispatcher builds this PDU, RTU_FROM_MBAP
normalises the 0x06 request to it and leaves the 0x10 request, which already is it, alone. -/
theorem registerWritesReachTheWireAlike : Obligations.RegisterWritesReachTheWireAlike := by
  rintro s slave addr value tid body - hon rfl
  replace hon : wrnorm s = true := hon
  have hframe := wrRegPdu_of_on addr value
  refine ⟨?dispatcher, ?single, ?multiple⟩
  case dispatcher =>
    have hends := ends_wrRegFrame s slave addr value
    rw [hon, wrRegFrame, hframe] at hends
    exact hends.output_of_ok rfl
  case single =>
    intro h hmax
    have hout := rtuFromMbap_of_request (p := 0x06#8 :: (be addr ++ be value)) (n := 5) rfl (by decide) (by decide) h hmax
    rwa [hon, ← wrRegPdu, hframe] at hout
  case multiple =>
    intro h hmax
    have hout := rtuFromMbap_of_request (p := wrRegPdu true addr value) (n := 8) rfl (by decide) (by decide) h hmax
    rwa [hon, normalise_wrRegPdu_of_on, hframe] at hout

end Sys2Proof.Machine
end

section
/-! The control commands (spec/44_control.md): what NOP (R101), SET_CFG (R102), GET_CFG (R103) and SOFT_RESET (R104)
answer. They read no input, so each answers from every state. -/

namespace Sys2Proof.Machine

/-- Every control command completes with a status, RES0 and no output. -/
theorem ends_noOutput (st : Status) (r0 : Word) (s : State) :
    Ends (complete ⟨st, r0, 0#16, 0#16, []⟩ s) s ⟨st, r0, 0#16, 0#16, []⟩ :=
  ends_complete _ s (Nat.zero_lt_succ 65535)

/-- Indices 0x03 to 0xFF have no register (R100). -/
theorem configReg_eq_none {a : Byte} (h : 0x03 ≤ a.toNat) : configReg a = none := by
  have hne (b : Byte) (hb : b.toNat < 0x03) : a ≠ b := by
    rintro rfl
    omega
  rw [configReg, if_neg (hne _ (by decide)), if_neg (hne _ (by decide)), if_neg (hne _ (by decide))]

/-! ## NOP (R101) -/

/-- Settles O48: NOP's one completion, from every state. -/
theorem nopResult : Obligations.NopResult :=
  ⟨encodingRule_of_allOnes .nop rfl (fun _ => rfl), ends_noOutput .ok 0#16⟩

/-! ## SET_CFG (R102) -/

/-- CTRL's reserved bits 15:1 are zero exactly in the values 0 and 1. -/
theorem ctrlReserved_eq_zero_iff (v : Word) : v.extractLsb' 1 15 = 0#15 ↔ v.toNat ≤ 1 := by
  have hv := v.isLt
  have hbits : (v.extractLsb' 1 15).toNat = v.toNat / 2 % 2 ^ 15 := by
    rw [BitVec.extractLsb'_toNat, Nat.shiftRight_one]
  rw [← BitVec.toNat_inj, hbits]
  simp only [BitVec.toNat_zero]
  omega

theorem exec_setCfg_ctrl_of_legal {v : Word} (s : State) (h : v.toNat ≤ 1) :
    exec (.setCfg 0x00#8 v) s = complete ⟨.ok, v, 0#16, 0#16, []⟩ (setCtrl v s) :=
  if_neg (not_not_intro ((ctrlReserved_eq_zero_iff v).2 h))

theorem exec_setCfg_ctrl_of_illegal {v : Word} (s : State) (h : 1 < v.toNat) :
    exec (.setCfg 0x00#8 v) s = complete (raised .badArg) s :=
  if_pos (fun hzero => Nat.not_le_of_lt h ((ctrlReserved_eq_zero_iff v).1 hzero))

theorem exec_setCfg_mbapLenMax_of_legal {v : Word} {s : State} (h2 : 2 ≤ v.toNat) (hmax : v.toNat ≤ bufCap s - 6) :
    exec (.setCfg 0x01#8 v) s = complete ⟨.ok, v, 0#16, 0#16, []⟩ (setMbapLenMax v s) :=
  if_neg (by omega)

theorem exec_setCfg_mbapLenMax_of_illegal {v : Word} {s : State} (h : v.toNat < 2 ∨ bufCap s - 6 < v.toNat) :
    exec (.setCfg 0x01#8 v) s = complete (raised .badArg) s :=
  if_pos h

/-- Index 0x02 is the read-only BUF_CAP, and the indices above it have no register. -/
theorem exec_setCfg_of_not_writable {a : Byte} (v : Word) (s : State) (h : 0x02 ≤ a.toNat) :
    exec (.setCfg a v) s = complete (raised .badArg) s := by
  rcases Nat.eq_or_lt_of_le h with hbufCap | hnone
  · obtain rfl : a = 0x02#8 := BitVec.eq_of_toNat_eq hbufCap.symm
    rfl
  · show execSetCfg a v s = _
    rw [execSetCfg, configReg_eq_none hnone]

/-- Settles O49: the five clauses are the equations of SET_CFG. -/
theorem setCfgResult : Obligations.SetCfgResult := by
  refine ⟨encodingRule_of_onlyAD .setCfg rfl (fun _ => rfl), fun s v =>
    ⟨?ctrl, ?ctrlIllegal, ?mbapLenMax, ?mbapLenMaxIllegal, ?notWritable⟩⟩
  case ctrl =>
    intro h
    rw [exec_setCfg_ctrl_of_legal s h]
    exact ends_noOutput .ok v (setCtrl v s)
  case ctrlIllegal =>
    intro h
    rw [exec_setCfg_ctrl_of_illegal s h]
    exact ends_noOutput .badArg 0#16 s
  case mbapLenMax =>
    intro h2 hmax
    rw [exec_setCfg_mbapLenMax_of_legal h2 hmax]
    exact ends_noOutput .ok v (setMbapLenMax v s)
  case mbapLenMaxIllegal =>
    intro h
    rw [exec_setCfg_mbapLenMax_of_illegal h]
    exact ends_noOutput .badArg 0#16 s
  case notWritable =>
    intro a h
    rw [exec_setCfg_of_not_writable v s h]
    exact ends_noOutput .badArg 0#16 s

/-! ## GET_CFG (R103) -/

theorem readCtrl_getLsbD_zero (s : State) : (readCtrl s).getLsbD 0 = s.cfgCtrl.getLsbD 0 := by
  simp [readCtrl]

/-- CTRL reads with bits 15:1 = 0 (R25). -/
theorem readCtrl_toNat_le_one (s : State) : (readCtrl s).toNat ≤ 1 := by
  rw [readCtrl, BitVec.toNat_and]
  exact Nat.and_le_right

theorem exec_getCfg_of_no_register {a : Byte} (s : State) (h : 0x03 ≤ a.toNat) :
    exec (.getCfg a) s = complete (raised .badArg) s := by
  show execGetCfg a s = _
  rw [execGetCfg, configReg_eq_none h]

/-- Settles O50: each register's index completes with that register, CTRL's as `readCtrl` reads it. -/
theorem getCfgResult : Obligations.GetCfgResult := by
  refine ⟨encodingRule_of_onlyA .getCfg rfl (fun _ => rfl), fun s => ⟨?ctrl, ?mbapLenMax, ?bufCap, ?none⟩⟩
  case ctrl => exact ⟨readCtrl s, readCtrl_getLsbD_zero s, readCtrl_toNat_le_one s, ends_noOutput .ok _ s⟩
  case mbapLenMax => exact ends_noOutput .ok s.cfgMbapLenMax s
  case bufCap => exact ends_noOutput .ok s.cfgBufCap s
  case none =>
    intro a h
    rw [exec_getCfg_of_no_register s h]
    exact ends_noOutput .badArg 0#16 s

/-! ## SOFT_RESET (R104) -/

/-- The reset value of MBAP_LEN_MAX (R26) fits its register, as it is at most 254. -/
theorem mbapLenMaxReset_toNat (cap : Word) : (mbapLenMaxReset cap).toNat = min 254 (cap.toNat - 6) :=
  word_toNat (Nat.lt_of_le_of_lt (Nat.min_le_left _ _) (by decide))

/-- Settles O51: SOFT_RESET completes on the state with the three registers at their reset values. -/
theorem softResetResult : Obligations.SoftResetResult :=
  ⟨encodingRule_of_allOnes .softReset rfl (fun _ => rfl), fun s =>
    ⟨mbapLenMaxReset s.cfgBufCap, mbapLenMaxReset_toNat s.cfgBufCap,
      ends_noOutput .ok 0#16 (setMbapLenMax _ (setCtrl 0x0001#16 (setCrc crcInitial s)))⟩⟩

end Sys2Proof.Machine
end

section
/-! The invariant (`State.Inv`): a reset establishes it, and every step keeps it; the two resets (R115, R116). -/

namespace Sys2Proof.Machine

/-! ## What keeps the invariant -/

/-- The invariant says nothing of ILEN and of the three fields of the model's own. -/
theorem State.Inv.setHostSide {s : State} (h : s.Inv) (v : Word) (q : List HostAction) (r : ReadData) (n : Nat) :
    State.Inv { s with ilen := v, hostQueue := q, readData := r, draws := n } :=
  ⟨h.ibuf_wf, h.obuf_wf, h.ibuf_below, h.obuf_below, h.bufCap_ge, h.ctrl_reserved, h.lenMax_ge, h.lenMax_le,
    h.olen_le, h.output_defined⟩

/-- A byte written into IBUF below BUF_CAP keeps the buffer canonical and inside BUF_CAP. -/
theorem State.Inv.writeIbuf {s : State} (h : s.Inv) {i : Nat} (hi : i < bufCap s) (b : Byte) :
    State.Inv { s with ibuf := memWrite s.ibuf i b } :=
  { h with
    ibuf_wf := memWrite_wf s.ibuf i b h.ibuf_wf
    ibuf_below := memWrite_below s.ibuf i (bufCap s) b hi h.ibuf_below }

/-- `finish` keeps the invariant when its output fits the buffer. -/
theorem State.Inv.finish {s : State} (h : s.Inv) {c : Completion} (hc : c.out.length ≤ bufCap s) :
    (finish c s).Inv := by
  have hlen : (word c.out.length).toNat = c.out.length := word_toNat (Nat.lt_of_le_of_lt hc (bufCap_lt s))
  exact { h with
    obuf_wf := memWriteRange_wf s.obuf 0 c.out h.obuf_wf
    obuf_below := memWriteRange_below s.obuf 0 (bufCap s) c.out (by omega) h.obuf_below
    olen_le := hlen.trans_le hc
    output_defined := by rw [outputBytes_finish c s (Nat.lt_of_le_of_lt hc (bufCap_lt s))]; rfl }

/-- The reset value of MBAP_LEN_MAX is legal for every legal BUF_CAP (R26). -/
theorem mbapLenMaxReset_legal {cap : Word} (h : 16 ≤ cap.toNat) :
    2 ≤ (mbapLenMaxReset cap).toNat ∧ (mbapLenMaxReset cap).toNat ≤ cap.toNat - 6 := by
  rw [mbapLenMaxReset_toNat]
  omega

/-- What an instruction may write before it finishes is legal, so that the invariant holds there too. -/
theorem State.Inv.writesOnly {i : Instr} {s s' : State} (h : s.Inv) (hw : WritesOnly i s s') : s'.Inv := by
  obtain ⟨heq, -, -, hctrl, hmax⟩ := hw
  have hcap : bufCap s' = bufCap s := by rw [heq]; rfl
  have hctrl' : s'.cfgCtrl.extractLsb' 1 15 = 0#15 := by
    rcases hctrl with hsame | hlegal
    · rw [hsame]; exact h.ctrl_reserved
    · exact hlegal
  have hmax' : 2 ≤ s'.cfgMbapLenMax.toNat ∧ s'.cfgMbapLenMax.toNat ≤ bufCap s - 6 := by
    rcases hmax with hsame | hreset | hlegal
    · rw [hsame]; exact ⟨h.lenMax_ge, h.lenMax_le⟩
    · rw [hreset]; exact mbapLenMaxReset_legal h.bufCap_ge
    · exact hlegal
  obtain ⟨hmin, hle⟩ := hmax'
  rw [heq]
  exact { h with ctrl_reserved := hctrl', lenMax_ge := hmin, lenMax_le := hle }

/-- The state after power-on meets the invariant for every legal BUF_CAP. -/
theorem powerOn_inv {cap : Word} (h : 16 ≤ cap.toNat) : (State.powerOn cap).Inv where
  ibuf_wf := List.Pairwise.nil
  obuf_wf := List.Pairwise.nil
  ibuf_below := fun _ hc => absurd hc List.not_mem_nil
  obuf_below := fun _ hc => absurd hc List.not_mem_nil
  bufCap_ge := h
  ctrl_reserved := (ctrlReserved_eq_zero_iff 0x0001#16).2 (by decide)
  lenMax_ge := (mbapLenMaxReset_legal h).1
  lenMax_le := (mbapLenMaxReset_legal h).2
  olen_le := Nat.zero_le _
  output_defined := rfl

/-! ## Every action keeps it -/

/-- Every instruction keeps the invariant: `exec_next` says where it finishes and how long its output is. -/
theorem exec_inv {i : Instr} {s t : State} (h : s.Inv) (ht : exec i s = .next t) : t.Inv := by
  obtain ⟨c, s', rfl, hw, -, hlen⟩ := exec_next ht
  have hcap : bufCap s' = bufCap s := by rw [hw.1]; rfl
  have h16 := h.bufCap_ge
  exact (h.writesOnly hw).finish (by omega)

theorem hostIssue_inv {w : CommandWord} {s t : State} (h : s.Inv) (ht : hostIssue w s = .next t) : t.Inv := by
  unfold hostIssue at ht
  split at ht
  · exact exec_inv h ht
  · cases ht
    exact h.finish (Nat.zero_le _)

theorem hostReadObuf_inv {i : Nat} {s t : State} (h : s.Inv) (ht : hostReadObuf i s = .next t) : t.Inv := by
  unfold hostReadObuf at ht
  split at ht
  · split at ht <;> cases ht <;> exact h.setHostSide _ _ _ _
  · cases ht

theorem perform_inv {a : HostAction} {s t : State} (h : s.Inv) (ht : perform a s = .next t) : t.Inv := by
  cases a with
  | writeIbuf i b =>
    simp only [perform, hostWriteIbuf] at ht
    split at ht
    · rename_i hi
      cases ht
      exact h.writeIbuf hi b
    · cases ht
  | writeIlen v =>
    cases ht
    exact h.setHostSide _ _ _ _
  | readReg r =>
    simp only [perform, hostReadReg] at ht
    split at ht <;> cases ht
    exact h.setHostSide _ _ _ _
  | readObuf i => exact hostReadObuf_inv h ht
  | issue w => exact hostIssue_inv h ht
  | reset =>
    cases ht
    exact (powerOn_inv h.bufCap_ge).setHostSide _ _ _ _

/-- Settles O3: every action of the host keeps the invariant, and waiting changes nothing. -/
theorem everyStepKeepsTheInvariant : Obligations.EveryStepKeepsTheInvariant := by
  intro s t h ht
  cases hq : s.hostQueue with
  | nil =>
    simp only [step, hostStep, hq] at ht
    cases ht
    exact h
  | cons a rest =>
    rw [step_of_queue hq] at ht
    exact perform_inv (h.setHostSide _ _ _ _) ht

/-- Settles O2: the default BUF_CAP 260 is legal. -/
theorem resetStateMeetsTheInvariant : Obligations.ResetStateMeetsTheInvariant := powerOn_inv (by decide)

/-! ## The two resets (R115, R116) -/

theorem obufByte_of_olen_zero {s : State} (h : s.olen = 0#16) (i : Nat) : obufByte i s = none := by
  rw [obufByte, h]
  exact if_neg (Nat.not_lt_zero i)

/-- Settles O1: the step is `hostReset`, whose state is the power-on state with the host's side kept. -/
theorem powerOnResetFromAnyState : Obligations.PowerOnResetFromAnyState := by
  intro s rest hq
  rw [step_of_queue hq]
  exact ⟨_, rfl, rfl, rfl, rfl, rfl, rfl, rfl, rfl, rfl, rfl, fun _ => rfl, obufByte_of_olen_zero rfl, rfl,
    mbapLenMaxReset_toNat s.cfgBufCap, rfl⟩

/-- Settles O52: both resets leave OLEN 0 and one and the same set of registers. -/
theorem theTwoResetsDifferOnlyInTheInput : Obligations.TheTwoResetsDifferOnlyInTheInput := by
  intro s
  exact ⟨_, _, rfl, rfl, rfl, rfl, rfl, rfl, rfl, rfl, rfl, rfl, rfl,
    fun i => (obufByte_of_olen_zero rfl i).trans (obufByte_of_olen_zero rfl i).symm, rfl, rfl, rfl, fun _ => rfl⟩

end Sys2Proof.Machine
end

section
/-! Decoder and encoder are inverse to each other (rules R47 to R50, R56), and a word is read back from a byte transport
(rule R38). -/

namespace Sys2Proof.Machine
open Sys2Proof.Laws

/-! ## Decoding an encoding -/

theorem decode_of_match {o : Opcode} {a b c : Byte} {d e : Word}
    (h : commandWord (opcodeByte o) a b c d e &&& opcodeMask o = opcodeMatch o) :
    decode (commandWord (opcodeByte o) a b c d e) = .ok (instrOf o a b c d e) := by
  rw [decode_commandWord, if_pos h]

/-- Settles O10: the encoding meets its own row's match (`Encoding.Statement`), and the fields read back are its operands. -/
theorem decodeOfEncodeIsTheInstruction : Obligations.DecodeOfEncodeIsTheInstruction := by
  intro i hwf
  cases i with
  | nop => exact decode_of_match (o := .nop) (Encoding.nop hwf)
  | crcInit => exact decode_of_match (o := .crcInit) (Encoding.crcInit hwf)
  | crcByte x => exact decode_of_match (o := .crcByte) (Encoding.crcByte x hwf)
  | crcBlock => exact decode_of_match (o := .crcBlock) (Encoding.crcBlock hwf)
  | crcLoad v => exact decode_of_match (o := .crcLoad) (Encoding.crcLoad v hwf)
  | crc16 => exact decode_of_match (o := .crc16) (Encoding.crc16 hwf)
  | rtuEncode a => exact decode_of_match (o := .rtuEncode) (Encoding.rtuEncode a hwf)
  | rtuDecode => exact decode_of_match (o := .rtuDecode) (Encoding.rtuDecode hwf)
  | rtuDelimit fc => exact decode_of_match (o := .rtuDelimit) (Encoding.rtuDelimit fc hwf)
  | writeNorm => exact decode_of_match (o := .writeNorm) (Encoding.writeNorm hwf)
  | wrRegFrame a d e => exact decode_of_match (o := .wrRegFrame) (Encoding.wrRegFrame a d e hwf)
  | mbapParse => exact decode_of_match (o := .mbapParse) (Encoding.mbapParse hwf)
  | mbapBuild u t => exact decode_of_match (o := .mbapBuild) (Encoding.mbapBuild u t hwf)
  | mbapException u f c t e => exact decode_of_match (o := .mbapException) (Encoding.mbapException u f c t e hwf)
  | rtuFromMbap => exact decode_of_match (o := .rtuFromMbap) (Encoding.rtuFromMbap hwf)
  | mbapFromRtu u f t => exact decode_of_match (o := .mbapFromRtu) (Encoding.mbapFromRtu u f t hwf)
  | setCfg x v => exact decode_of_match (o := .setCfg) (Encoding.setCfg x v hwf)
  | getCfg x => exact decode_of_match (o := .getCfg) (Encoding.getCfg x hwf)
  | softReset => exact decode_of_match (o := .softReset) (Encoding.softReset hwf)
  | fcReadCoils => exact Encoding.fcReadCoils hwf
  | fcReadDiscreteInputs => exact Encoding.fcReadDiscreteInputs hwf
  | fcReadHoldingRegisters => exact Encoding.fcReadHoldingRegisters hwf
  | fcReadInputRegisters => exact Encoding.fcReadInputRegisters hwf
  | fcWriteSingleCoil => exact Encoding.fcWriteSingleCoil hwf
  | fcWriteSingleRegister => exact Encoding.fcWriteSingleRegister hwf
  | fcWriteMultipleCoils => exact Encoding.fcWriteMultipleCoils hwf
  | fcWriteMultipleRegisters => exact Encoding.fcWriteMultipleRegisters hwf
  | fcException v => exact Encoding.fcException v hwf

/-! ## Encoding what was decoded -/

theorem byte_and_FF (b : Byte) : b &&& 0xFF#8 = b := BitVec.and_allOnes

theorem word_and_FFFF (v : Word) : v &&& 0xFFFF#16 = v := BitVec.and_allOnes

/-- The instruction of an opcode, with fields whose reserved bits are zero, is encoded as those fields. -/
theorem encode_instrOf {o : Opcode} {a b c : Byte} {d e : Word}
    (ha : a &&& fieldA (opcodeMask o) = 0#8) (hb : b &&& fieldB (opcodeMask o) = 0#8)
    (hc : c &&& fieldC (opcodeMask o) = 0#8) (hd : d &&& fieldD (opcodeMask o) = 0#16)
    (he : e &&& fieldE (opcodeMask o) = 0#16) :
    (instrOf o a b c d e).wellFormed = true ∧
      encode (instrOf o a b c d e) = .command (commandWord (opcodeByte o) a b c d e) := by
  cases o
  case mbapException =>
    have hhi : hi e = 0#8 := (and_FF00_eq_zero_iff e).1 he
    exact ⟨beq_iff_eq.2 hhi, rfl⟩
  all_goals
    simp only [opcodeMask, fieldA, fieldB, fieldC, fieldD, fieldE, BitVec.reduceExtractLsb', byte_and_FF, word_and_FFFF,
      BitVec.and_zero] at ha hb hc hd he
    subst_vars
    exact ⟨rfl, rfl⟩

/-- What the decoder reads from a command word is well-formed, and its encoding is that word. -/
theorem encode_of_decode {w : CommandWord} {i : Instr} (h : decode w = .ok i) :
    i.wellFormed = true ∧ encode i = .command w := by
  unfold decode at h
  split at h
  · cases h
  · split at h
    · rename_i o _ hmatch
      cases h
      have hfields := hmatch
      rw [← commandWord_fields w, commandWord_and_mask] at hfields
      obtain ⟨hop, ha, hb, hc, hd, he⟩ := hfields
      have henc := encode_instrOf ha hb hc hd he
      rwa [← hop, commandWord_fields] at henc
    · cases h

/-- What the decoder reads from a function-code byte is well-formed, and its encoding is that byte. -/
theorem encode_of_decodeFunctionCode {v : Byte} {i : Instr} (h : decodeFunctionCode v = .ok i) :
    i.wellFormed = true ∧ encode i = .functionCode v := by
  unfold decodeFunctionCode at h
  split at h
  · rename_i h7
    cases h
    exact ⟨h7, rfl⟩
  · split_ifs at h <;> cases h <;> subst_vars <;> exact ⟨rfl, rfl⟩

/-- Settles O11: one lemma for each of the two formats. -/
theorem encodeOfDecodeIsTheWord : Obligations.EncodeOfDecodeIsTheWord := by
  intro x i h
  cases x with
  | command w => exact encode_of_decode h
  | functionCode v => exact encode_of_decodeFunctionCode h

/-- Settles O14: the decoder, run on the seven words. -/
theorem handWrittenWordsDecode : Obligations.HandWrittenWordsDecode := by
  unfold Obligations.HandWrittenWordsDecode
  decide

/-! ## The byte transport (R38) -/

/-- The eight bytes of a word, put together again last byte first, are the word. -/
theorem join_bytes (w : CommandWord) :
    (w.extractLsb' 56 8 ++ w.extractLsb' 48 8 ++ w.extractLsb' 40 8 ++ w.extractLsb' 32 8 ++ w.extractLsb' 24 8 ++
      w.extractLsb' 16 8 ++ w.extractLsb' 8 8 ++ w.extractLsb' 0 8 : CommandWord) = w := by
  apply BitVec.eq_of_getLsbD_eq
  intro i hi
  simp only [BitVec.getLsbD_append, BitVec.getLsbD_extractLsb']
  grind

/-- Settles O15: the stream's first eight bytes are the word again (`join_bytes`). -/
theorem serialisedWordIsRead : Obligations.SerialisedWordIsRead := by
  intro w rest
  refine ⟨rfl, ?_⟩
  simp only [commandBytes, List.cons_append, List.nil_append, decodeBytes, join_bytes]
  cases decode w <;> rfl

/-! ## Issued commands (R49) -/

theorem hostIssue_of_decode {w : CommandWord} {i : Instr} (h : decode w = .ok i) (s : State) :
    hostIssue w s = exec i s := by
  rw [hostIssue, h]

/-- Settles O4: the step performs the issue, and the issue is the decoded instruction. -/
theorem stepRunsTheDecodedCommand : Obligations.StepRunsTheDecodedCommand := by
  intro s w rest i hq hd
  rw [step_of_queue hq]
  exact hostIssue_of_decode hd _

end Sys2Proof.Machine
end

section
/-! The normal form of `exec`: what an instruction reports and what it writes, as functions of the state and the input. -/

namespace Sys2Proof.Machine

/-! ## The completion and the written registers -/

/-- SET_CFG accepts the index and the value (R102). -/
def setCfgLegal (idx : Byte) (value : Word) (cap : Nat) : Bool :=
  match configReg idx with
  | some .ctrl => value.extractLsb' 1 15 = 0#15
  | some .mbapLenMax => 2 ≤ value.toNat ∧ value.toNat ≤ cap - 6
  | some .bufCap | none => false

/-- The register at a configuration index takes a value. -/
def setCfgWrite (idx : Byte) (value : Word) (s : State) : State :=
  match configReg idx with
  | some .ctrl => setCtrl value s
  | some .mbapLenMax => setMbapLenMax value s
  | some .bufCap | none => s

/-- The value GET_CFG reports (R103). -/
def getCfgValue (idx : Byte) (s : State) : Option Word :=
  (configReg idx).map fun
    | .ctrl => readCtrl s
    | .mbapLenMax => s.cfgMbapLenMax
    | .bufCap => s.cfgBufCap

/-- What instruction `i` reports on the input `inp`. -/
def report (i : Instr) (s : State) (inp : List Byte) : Completion :=
  match i with
  | .nop | .softReset => ⟨.ok, 0#16, 0#16, 0#16, []⟩
  | .crcInit => ⟨.ok, crcInitial, 0#16, 0#16, []⟩
  | .crcByte byte => ⟨.ok, crcStep s.crc byte, 0#16, 0#16, []⟩
  | .crcBlock => ⟨.ok, crcOver s.crc inp, 0#16, 0#16, []⟩
  | .crcLoad value => ⟨.ok, value, 0#16, 0#16, []⟩
  | .crc16 => ⟨.ok, crc16Of inp, 0#16, 0#16, le (crc16Of inp)⟩
  | .rtuEncode slave => rtuEncode (bufCap s) slave inp
  | .rtuDecode => rtuDecode inp
  | .rtuDelimit fc => delimit (bufCap s) (responseClass fc) inp
  | .writeNorm => writeNorm (bufCap s) (wrnorm s) inp
  | .wrRegFrame slave addr value => wrRegFrame (wrnorm s) slave addr value
  | .mbapParse => mbapParse s.cfgMbapLenMax.toNat inp
  | .mbapBuild unit tid => mbapBuild (bufCap s) unit tid inp
  | .mbapException unit fc kind tid code => mbapException unit fc kind tid (lo code)
  | .rtuFromMbap => rtuFromMbap (bufCap s) s.cfgMbapLenMax.toNat (wrnorm s) inp
  | .mbapFromRtu unit fc tid => mbapFromRtu (bufCap s) unit fc tid inp
  | .setCfg idx value => bif setCfgLegal idx value (bufCap s) then ⟨.ok, value, 0#16, 0#16, []⟩ else raised .badArg
  | .getCfg idx => (getCfgValue idx s).elim (raised .badArg) fun v => ⟨.ok, v, 0#16, 0#16, []⟩
  | .fcReadCoils | .fcReadDiscreteInputs | .fcReadHoldingRegisters | .fcReadInputRegisters =>
    delimit (bufCap s) .readBc inp
  | .fcWriteSingleCoil | .fcWriteSingleRegister | .fcWriteMultipleCoils | .fcWriteMultipleRegisters =>
    delimit (bufCap s) .fixed8 inp
  | .fcException value => delimit (bufCap s) (responseClass value) inp

/-- The state in which instruction `i` has written its register and has not yet finished. -/
def written (i : Instr) (s : State) (inp : List Byte) : State :=
  match i with
  | .crcInit => setCrc crcInitial s
  | .crcByte byte => setCrc (crcStep s.crc byte) s
  | .crcBlock => setCrc (crcOver s.crc inp) s
  | .crcLoad value => setCrc value s
  | .crc16 => setCrc (crc16Of inp) s
  | .setCfg idx value => bif setCfgLegal idx value (bufCap s) then setCfgWrite idx value s else s
  | .softReset => setMbapLenMax (mbapLenMaxReset s.cfgBufCap) (setCtrl 0x0001#16 (setCrc crcInitial s))
  | .nop | .rtuEncode _ | .rtuDecode | .rtuDelimit _ | .writeNorm | .wrRegFrame _ _ _ => s
  | .mbapParse | .mbapBuild _ _ | .mbapException _ _ _ _ _ | .rtuFromMbap | .mbapFromRtu _ _ _ | .getCfg _ => s
  | .fcReadCoils | .fcReadDiscreteInputs | .fcReadHoldingRegisters | .fcReadInputRegisters => s
  | .fcWriteSingleCoil | .fcWriteSingleRegister | .fcWriteMultipleCoils | .fcWriteMultipleRegisters => s
  | .fcException _ => s

/-! ## `exec` by its report and its writes -/

theorem exec_setCfg (idx : Byte) (value : Word) (s : State) (inp : List Byte) :
    exec (.setCfg idx value) s = complete (report (.setCfg idx value) s inp) (written (.setCfg idx value) s inp) := by
  show execSetCfg idx value s =
    complete (bif setCfgLegal idx value (bufCap s) then ⟨.ok, value, 0#16, 0#16, []⟩ else raised .badArg)
      (bif setCfgLegal idx value (bufCap s) then setCfgWrite idx value s else s)
  unfold execSetCfg setCfgLegal setCfgWrite
  cases configReg idx with
  | none => rfl
  | some r =>
    cases r with
    | ctrl => by_cases h : value.extractLsb' 1 15 = 0#15 <;> simp [h]
    | mbapLenMax =>
      by_cases h : value.toNat < 2 ∨ value.toNat > bufCap s - 6
      · have hillegal : ¬ (2 ≤ value.toNat ∧ value.toNat ≤ bufCap s - 6) := by omega
        simp only [if_pos h, decide_eq_false hillegal, cond_false]
      · have hlegal : 2 ≤ value.toNat ∧ value.toNat ≤ bufCap s - 6 := by omega
        simp only [if_neg h, decide_eq_true hlegal, cond_true]
    | bufCap => rfl

theorem exec_getCfg (idx : Byte) (s : State) (inp : List Byte) :
    exec (.getCfg idx) s = complete (report (.getCfg idx) s inp) s := by
  show execGetCfg idx s = complete ((getCfgValue idx s).elim (raised .badArg) fun v => ⟨.ok, v, 0#16, 0#16, []⟩) s
  unfold execGetCfg getCfgValue
  cases configReg idx with
  | none => rfl
  | some r => cases r <;> rfl

/-- An instruction that reads the input checks it (R61), then reports and writes by it. -/
theorem exec_of_readsInput {i : Instr} (h : readsInput i = true) (s : State) :
    exec i s = withInput s fun inp => complete (report i s inp) (written i s inp) := by
  cases i <;> cases h <;> rfl

/-- An instruction that reads no input always completes, whatever stands for its input. -/
theorem exec_of_not_readsInput {i : Instr} (h : readsInput i = false) (s : State) (inp : List Byte) :
    exec i s = complete (report i s inp) (written i s inp) := by
  cases i
  case setCfg idx value => exact exec_setCfg idx value s inp
  case getCfg idx => exact exec_getCfg idx s inp
  all_goals cases h <;> rfl

/-- `inp` may stand for the input of instruction `i`: it is the input, if `i` reads it. -/
def Readable (i : Instr) (s : State) (inp : List Byte) : Prop := readsInput i = true → InputIs s inp

theorem exec_of_readable {i : Instr} {s : State} {inp : List Byte} (h : Readable i s inp) :
    exec i s = complete (report i s inp) (written i s inp) := by
  cases hr : readsInput i with
  | false => exact exec_of_not_readsInput hr s inp
  | true =>
    rw [exec_of_readsInput hr]
    exact withInput_of_inputIs (h hr) _

theorem exec_of_ilen_gt {i : Instr} {s : State} (hr : readsInput i = true) (h : bufCap s < s.ilen.toNat) :
    exec i s = complete (raised .badArg) s := by
  rw [exec_of_readsInput hr]
  exact withInput_of_ilen_gt h _

/-- The two ways in which an instruction answers a next state. -/
theorem exec_next_cases {i : Instr} {s t : State} (h : exec i s = .next t) :
    (∃ inp, Readable i s inp ∧ t = finish (report i s inp) (written i s inp)) ∨
    (readsInput i = true ∧ bufCap s < s.ilen.toNat ∧ t = finish (raised .badArg) s) := by
  cases hr : readsInput i with
  | false =>
    rw [exec_of_not_readsInput hr s []] at h
    cases h
    exact .inl ⟨[], fun hread => absurd (hr.symm.trans hread) Bool.false_ne_true, rfl⟩
  | true =>
    rw [exec_of_readsInput hr] at h
    rcases withInput_cases s fun inp => complete (report i s inp) (written i s inp)
      with ⟨inp, hi, he⟩ | ⟨hlen, he⟩ | ⟨-, -, he⟩
    · cases he.symm.trans h
      exact .inl ⟨inp, fun _ => hi, rfl⟩
    · cases he.symm.trans h
      exact .inr ⟨rfl, hlen, rfl⟩
    · cases he.symm.trans h

end Sys2Proof.Machine
end

section
/-! The whole-machine rules: what every instruction leaves alone (R62), what a failure changes (R108), who writes which
status (R105), when an instruction faults (R33) or finds its input too long (R61), and what its outcome depends on (R30). -/

namespace Sys2Proof.Machine

/-! ## The frame (R62) -/

theorem olen_of_fits {c : Completion} {s s' : State} (h : c.out.length ≤ max 11 (bufCap s)) :
    (finish c s').olen.toNat = c.out.length := by
  have hcap := bufCap_lt s
  exact word_toNat (by omega)

/-- Settles O17: the instruction finishes from a state with only its own registers written (`exec_next`). -/
theorem everyInstructionKeepsItsFrame : Obligations.EveryInstructionKeepsItsFrame := by
  intro i s t h
  obtain ⟨c, s', rfl, ⟨heq, hcrc, hcfg, -, -⟩, -, hlen⟩ := exec_next h
  refine ⟨?kept, hcrc, hcfg⟩
  rw [heq]
  refine ⟨rfl, fun _ => rfl, rfl, rfl, rfl, rfl, fun a ha => ?_⟩
  rw [olen_of_fits hlen] at ha
  exact memRead_finish_obuf_outside c _ a ha

/-! ## Statuses (R105) -/

theorem badCommand_not_mem_mayReport (i : Instr) : Status.badCommand ∉ mayReport i := by
  cases i <;> simp [mayReport]

theorem statusCode_le (st : Status) : (statusCode st).toNat ≤ 0x0A := by
  cases st <;> decide

/-- Settles O19: `exec_next` bounds the statuses by `mayReport`, which never lists BAD_COMMAND. -/
theorem statusCodesAndTheirWriters : Obligations.StatusCodesAndTheirWriters := by
  have hwriters : ∀ (i : Instr) (s t : State), exec i s = .next t → t.status ∈ mayReport i := by
    intro i s t h
    obtain ⟨c, s', rfl, -, hst, -⟩ := exec_next h
    exact hst
  refine ⟨by decide, statusCode_le, hwriters, ?_⟩
  intro w s t h hst i hd
  rw [hostIssue_of_decode hd] at h
  exact badCommand_not_mem_mayReport i (hst ▸ hwriters i s t h)

/-! ## Failures (R108) -/

/-- A completion with no output, unless its status is OK. -/
def SilentUnlessOk (c : Completion) : Prop := c.status ≠ .ok → c.out = []

theorem silentUnlessOk_of_silent {c : Completion} (h : c.out = []) : SilentUnlessOk c := fun _ => h

theorem silentUnlessOk_of_ok {c : Completion} (h : c.status = .ok) : SilentUnlessOk c := fun hne => absurd h hne

theorem SilentUnlessOk.ite {p : Prop} [Decidable p] {c d : Completion} (hc : SilentUnlessOk c) (hd : SilentUnlessOk d) :
    SilentUnlessOk (if p then c else d) := by
  split
  · exact hc
  · exact hd

theorem silentUnlessOk_rtuEncode (cap : Nat) (a : Byte) (inp : List Byte) : SilentUnlessOk (rtuEncode cap a inp) :=
  .ite (silentUnlessOk_of_silent rfl) (.ite (silentUnlessOk_of_silent rfl) (silentUnlessOk_of_ok rfl))

theorem silentUnlessOk_writeNorm (cap : Nat) (on : Bool) (inp : List Byte) : SilentUnlessOk (writeNorm cap on inp) :=
  .ite (silentUnlessOk_of_silent rfl) (.ite (silentUnlessOk_of_silent rfl) (silentUnlessOk_of_ok rfl))

theorem silentUnlessOk_mbapParse (lenMax : Nat) (inp : List Byte) : SilentUnlessOk (mbapParse lenMax inp) :=
  .ite (silentUnlessOk_of_silent rfl) <| .ite (silentUnlessOk_of_silent rfl) <| .ite (silentUnlessOk_of_silent rfl) <|
    .ite (silentUnlessOk_of_silent rfl) <| .ite (silentUnlessOk_of_silent rfl) (silentUnlessOk_of_ok rfl)

theorem silentUnlessOk_mbapBuild (cap : Nat) (u : Byte) (tid : Word) (inp : List Byte) :
    SilentUnlessOk (mbapBuild cap u tid inp) :=
  .ite (silentUnlessOk_of_silent rfl) (.ite (silentUnlessOk_of_silent rfl) (silentUnlessOk_of_ok rfl))

theorem silentUnlessOk_mbapException (u f c : Byte) (tid : Word) (device : Byte) :
    SilentUnlessOk (mbapException u f c tid device) := by
  unfold mbapException
  split
  · exact silentUnlessOk_of_silent rfl
  · split
    · exact silentUnlessOk_of_silent rfl
    · exact silentUnlessOk_of_ok rfl

theorem silentUnlessOk_rtuFromMbap (cap lenMax : Nat) (on : Bool) (inp : List Byte) :
    SilentUnlessOk (rtuFromMbap cap lenMax on inp) :=
  .ite (silentUnlessOk_of_silent rfl) (.ite (silentUnlessOk_of_silent rfl) (silentUnlessOk_of_ok rfl))

/-- The statuses that carry no output frame, for instruction `i` (R108): MBAP_FROM_RTU answers CRC_MISMATCH and TOO_SHORT
with a frame (R92). -/
def FailsWith (i : Instr) (st : Status) : Prop :=
  st ∈ [Status.needMore, .lengthUnknown, .malformedFrame, .noResponse, .overflow, .badArg, .badCommand] ∨
    st ∈ [Status.crcMismatch, .tooShort] ∧ ∀ a b d, i ≠ .mbapFromRtu a b d

theorem FailsWith.ne_ok {i : Instr} {st : Status} (h : FailsWith i st) : st ≠ .ok := by
  rintro rfl
  simp [FailsWith] at h

theorem FailsWith.ne_exceptionFrame {i : Instr} {st : Status} (h : FailsWith i st) : st ≠ .exceptionFrame := by
  rintro rfl
  simp [FailsWith] at h

theorem rtuDecode_out_of_rejected {inp : List Byte} (hok : (rtuDecode inp).status ≠ .ok)
    (hx : (rtuDecode inp).status ≠ .exceptionFrame) : (rtuDecode inp).out = [] := by
  unfold rtuDecode at hok hx ⊢
  repeat' split
  all_goals simp_all

/-- MBAP_FROM_RTU fails only by OVERFLOW: each verdict of RTU_DECODE has its frame. -/
theorem mbapFromRtu_out_of_fails {cap : Nat} {u f : Byte} {tid : Word} {inp : List Byte}
    (h : FailsWith (.mbapFromRtu u f tid) (mbapFromRtu cap u f tid inp).status) :
    (mbapFromRtu cap u f tid inp).out = [] := by
  rcases rtuDecode_status inp with hv | hv | hv
  · by_cases hcap : cap < (rtuDecode inp).out.length + 7
    · rw [mbapFromRtu_of_overflow hv hcap]
      rfl
    · rw [mbapFromRtu_of_fits hv (by omega)] at h
      exact absurd rfl h.ne_ok
  · rw [mbapFromRtu_of_exception hv] at h
    exact absurd rfl h.ne_exceptionFrame
  · rw [mbapFromRtu_of_rejected hv] at h
    rcases hv with hv | hv <;> simp [FailsWith, hv] at h

/-- A failure has no output. -/
theorem report_out_of_fails {i : Instr} {s : State} {inp : List Byte} (h : FailsWith i (report i s inp).status) :
    (report i s inp).out = [] := by
  cases i with
  | rtuEncode a => exact silentUnlessOk_rtuEncode _ _ _ h.ne_ok
  | rtuDecode => exact rtuDecode_out_of_rejected h.ne_ok h.ne_exceptionFrame
  | writeNorm => exact silentUnlessOk_writeNorm _ _ _ h.ne_ok
  | mbapParse => exact silentUnlessOk_mbapParse _ _ h.ne_ok
  | mbapBuild u tid => exact silentUnlessOk_mbapBuild _ _ _ _ h.ne_ok
  | mbapException u f c tid e => exact silentUnlessOk_mbapException _ _ _ _ _ h.ne_ok
  | rtuFromMbap => exact silentUnlessOk_rtuFromMbap _ _ _ _ h.ne_ok
  | mbapFromRtu u f tid => exact mbapFromRtu_out_of_fails h
  | setCfg idx v =>
    simp only [report]
    cases setCfgLegal idx v (bufCap s) <;> rfl
  | getCfg idx =>
    simp only [report]
    cases getCfgValue idx s <;> rfl
  | crc16 => exact absurd rfl h.ne_ok
  | wrRegFrame a d e => exact absurd rfl h.ne_ok
  | rtuDelimit | fcReadCoils | fcReadDiscreteInputs | fcReadHoldingRegisters | fcReadInputRegisters
  | fcWriteSingleCoil | fcWriteSingleRegister | fcWriteMultipleCoils | fcWriteMultipleRegisters | fcException =>
    exact delimit_out _ _ _
  | _ => rfl

/-- A register is written only on the way to OK. -/
theorem written_of_not_ok {i : Instr} {s : State} {inp : List Byte} (h : (report i s inp).status ≠ .ok) :
    written i s inp = s := by
  cases i with
  | crcInit | crcByte | crcBlock | crcLoad | crc16 | softReset => exact absurd rfl h
  | setCfg idx v =>
    simp only [report, written] at h ⊢
    cases hl : setCfgLegal idx v (bufCap s) with
    | false => rfl
    | true =>
      rw [hl] at h
      exact absurd rfl h
  | _ => rfl

/-- Settles O18: a failure has no output and has written no register, so `finish` sets the results alone. -/
theorem failedCommandChangesOnlyItsResults : Obligations.FailedCommandChangesOnlyItsResults := by
  intro i s t h hfail
  rcases exec_next_cases h with ⟨inp, -, rfl⟩ | ⟨-, -, rfl⟩
  · have hf : FailsWith i (report i s inp).status := hfail
    rw [finish, report_out_of_fails hf, written_of_not_ok hf.ne_ok]
    rfl
  · rfl

/-! ## Faults (R33, R114) -/

theorem inputBytes_eq_none_iff (s : State) :
    inputBytes s = none ↔ ∃ a, a < s.ilen.toNat ∧ memRead s.ibuf a = none := by
  have h := memReadRange_isSome_iff s.ibuf 0 s.ilen.toNat
  rw [inputBytes, ← Option.not_isSome_iff_eq_none, h]
  simp

/-- With no unwritten input byte in the way, an instruction completes. -/
theorem exec_completes {i : Instr} {s : State}
    (h : ¬ (readsInput i = true ∧ s.ilen.toNat ≤ bufCap s ∧ inputBytes s = none)) : ∃ t, exec i s = .next t := by
  cases hr : readsInput i with
  | false => exact ⟨_, exec_of_not_readsInput hr s []⟩
  | true =>
    by_cases hlen : s.ilen.toNat ≤ bufCap s
    · cases hi : inputBytes s with
      | none => exact absurd ⟨hr, hlen, hi⟩ h
      | some inp => exact ⟨_, exec_of_readable fun _ => ⟨hlen, hi⟩⟩
    · exact ⟨_, exec_of_ilen_gt hr (by omega)⟩

/-- Settles O20: the input check is the one place where an instruction can stop. -/
theorem faultExactlyOnUnwrittenInput : Obligations.FaultExactlyOnUnwrittenInput := by
  intro i s
  rw [← inputBytes_eq_none_iff]
  refine ⟨?_, exec_completes⟩
  rintro ⟨hr, hlen, hnone⟩
  rw [exec_of_readsInput hr]
  exact withInput_of_unwritten hlen hnone _

theorem exec_completes_of_inputIs {s : State} {inp : List Byte} (h : InputIs s inp) (i : Instr) :
    ∃ t, exec i s = .next t :=
  ⟨_, exec_of_readable fun _ => h⟩

/-! ## What an outcome depends on (R30) -/

theorem report_congr {i : Instr} {s u : State} {inp : List Byte} (hcap : s.cfgBufCap = u.cfgBufCap)
    (hctrl : s.cfgCtrl = u.cfgCtrl) (hmax : s.cfgMbapLenMax = u.cfgMbapLenMax)
    (hcrc : readsCrc i = true → s.crc = u.crc) : report i s inp = report i u inp := by
  cases i with
  | crcByte b => simp only [report, hcrc rfl]
  | crcBlock => simp only [report, hcrc rfl]
  | getCfg idx => simp only [report, getCfgValue, readCtrl, hctrl, hmax, hcap]
  | _ => simp only [report, bufCap, wrnorm, hctrl, hmax, hcap]

theorem written_crc_congr {i : Instr} {s u : State} {inp : List Byte} (hw : writesCrc i = true)
    (hcrc : readsCrc i = true → s.crc = u.crc) : (written i s inp).crc = (written i u inp).crc := by
  cases i with
  | crcByte b => simp only [written, setCrc_crc, hcrc rfl]
  | crcBlock => simp only [written, setCrc_crc, hcrc rfl]
  | crcInit | crcLoad | crc16 | softReset => rfl
  | _ => cases hw

theorem written_cfg_congr {i : Instr} {s u : State} {inp : List Byte} (hcap : s.cfgBufCap = u.cfgBufCap)
    (hctrl : s.cfgCtrl = u.cfgCtrl) (hmax : s.cfgMbapLenMax = u.cfgMbapLenMax) :
    (written i s inp).cfgCtrl = (written i u inp).cfgCtrl ∧
      (written i s inp).cfgMbapLenMax = (written i u inp).cfgMbapLenMax := by
  cases i with
  | setCfg idx v =>
    simp only [written, bufCap, hcap]
    cases setCfgLegal idx v u.cfgBufCap.toNat with
    | false => exact ⟨hctrl, hmax⟩
    | true =>
      simp only [cond_true, setCfgWrite]
      split <;> simp [hctrl, hmax]
  | softReset => simp [written, hcap]
  | _ => exact ⟨hctrl, hmax⟩

theorem report_out_length_lt {i : Instr} {s : State} {inp : List Byte} (h : Readable i s inp) :
    (report i s inp).out.length < 65536 := by
  have hcap := bufCap_lt s
  cases i with
  | rtuEncode a => exact Nat.lt_of_le_of_lt (rtuEncode_out_length _ _ _) hcap
  | rtuDecode => exact Nat.lt_of_le_of_lt (rtuDecode_out_length _) (h rfl).length_lt
  | writeNorm => exact Nat.lt_of_le_of_lt (writeNorm_out_length _ _ _) hcap
  | wrRegFrame a d e => exact Nat.lt_of_le_of_lt (wrRegFrame_out_length _ _ _ _) (by decide)
  | mbapParse => exact Nat.lt_of_le_of_lt (mbapParse_out_length _ _) (h rfl).length_lt
  | mbapBuild u tid => exact Nat.lt_of_le_of_lt (mbapBuild_out_length _ _ _ _) hcap
  | mbapException u f c tid e => exact Nat.lt_of_le_of_lt (mbapException_out_length _ _ _ _ _) (by decide)
  | rtuFromMbap => exact Nat.lt_of_le_of_lt (rtuFromMbap_out_length _ _ _ _) hcap
  | mbapFromRtu u f tid => exact mbapFromRtu_out_length_lt s u f tid inp
  | setCfg idx v =>
    simp only [report]
    cases setCfgLegal idx v (bufCap s) <;> exact Nat.zero_lt_succ _
  | getCfg idx =>
    simp only [report]
    cases getCfgValue idx s <;> exact Nat.zero_lt_succ _
  | crc16 => exact Nat.lt_of_le_of_lt (le_length _).le (by decide)
  | rtuDelimit | fcReadCoils | fcReadDiscreteInputs | fcReadHoldingRegisters | fcReadInputRegisters
  | fcWriteSingleCoil | fcWriteSingleRegister | fcWriteMultipleCoils | fcWriteMultipleRegisters | fcException =>
    simp [report]
  | _ => exact Nat.zero_lt_succ _

/-- Settles O22: the completion is the same by `report_congr`, and the registers written are by `written_crc_congr` and
`written_cfg_congr`; past the buffer both complete BAD_ARG. -/
theorem outcomeDependsOnlyOnInputAndConfiguration : Obligations.OutcomeDependsOnlyOnInputAndConfiguration := by
  intro i s u t hilen hinput hctrl hmax hcap hcrc h
  have hcap' : bufCap s = bufCap u := congrArg BitVec.toNat hcap
  rcases exec_next_cases h with ⟨inp, hread, rfl⟩ | ⟨hr, hlen, rfl⟩
  · have hreport : report i u inp = report i s inp := (report_congr hcap hctrl hmax hcrc).symm
    have hread' : Readable i u inp := fun hr => by
      obtain ⟨hle, hin⟩ := hread hr
      exact ⟨by rw [← hilen, ← hcap']; exact hle, hinput ▸ hin⟩
    obtain ⟨hctrl', hmax'⟩ := written_cfg_congr (i := i) (inp := inp) hcap hctrl hmax
    have hout := report_out_length_lt hread
    refine ⟨finish (report i s inp) (written i u inp), ?_, rfl, rfl, rfl, rfl, rfl,
      ⟨_, outputBytes_finish _ _ hout, outputBytes_finish _ _ hout⟩, ?_, hctrl'.symm, hmax'.symm⟩
    · rw [exec_of_readable hread', hreport, complete_eq]
    · exact fun hw _ => (written_crc_congr hw hcrc).symm
  · rw [hcap', hilen] at hlen
    exact ⟨_, exec_of_ilen_gt hr hlen, rfl, rfl, rfl, rfl, rfl, ⟨[], rfl, rfl⟩, fun _ hne => absurd rfl hne,
      hctrl.symm, hmax.symm⟩

/-! ## The input length (R61) -/

theorem written_setIlen (i : Instr) (s : State) (v : Word) (inp : List Byte) :
    written i { s with ilen := v } inp = { written i s inp with ilen := v } := by
  cases i with
  | setCfg idx value =>
    simp only [written, bufCap]
    cases setCfgLegal idx value s.cfgBufCap.toNat with
    | false => rfl
    | true =>
      simp only [cond_true, setCfgWrite]
      split <;> rfl
  | _ => rfl

/-- Settles O21: the readers through `exec_of_readsInput`; the others have a report that ILEN does not enter. -/
theorem inputLengthIsCheckedFirst : Obligations.InputLengthIsCheckedFirst := by
  refine ⟨fun i hr => badArgPastBuffer_of_withInput _ (exec_of_readsInput hr), ?_⟩
  intro i s t v hr h
  rw [exec_of_not_readsInput hr s [], complete_eq] at h
  cases h
  rw [exec_of_not_readsInput hr _ [], written_setIlen, report_congr (u := s) rfl rfl rfl fun _ => rfl]
  rfl

/-! ## Consequences for single commands -/

/-- Settles O40: MBAP_PARSE leaves the input and the configuration as they were, and they alone decide its outcome (O22). -/
theorem parsingAgainFindsTheSameFrame : Obligations.ParsingAgainFindsTheSameFrame := by
  intro s t h
  have hsame : t.ilen = s.ilen ∧ t.ibuf = s.ibuf ∧ t.cfgCtrl = s.cfgCtrl ∧ t.cfgMbapLenMax = s.cfgMbapLenMax ∧
      t.cfgBufCap = s.cfgBufCap := by
    rcases exec_next_cases h with ⟨inp, -, rfl⟩ | ⟨-, -, rfl⟩ <;> exact ⟨rfl, rfl, rfl, rfl, rfl⟩
  obtain ⟨hilen, hibuf, hctrl, hmax, hcap⟩ := hsame
  have hinput : inputBytes s = inputBytes t := by rw [inputBytes, inputBytes, hilen, hibuf]
  obtain ⟨v, hv, hst, h0, h1, h2, holen, ⟨out, hout, hout'⟩, -⟩ := outcomeDependsOnlyOnInputAndConfiguration .mbapParse
    s t t hilen.symm hinput hctrl.symm hmax.symm hcap.symm (fun hr => by cases hr) h
  exact ⟨v, hv, hst, h0, h1, h2, holen, hout'.trans hout.symm⟩

/-- Settles O44: an accepted request's frame fits (`rtuFromMbap_of_ok`), and MBAP_PARSE's own verdicts are not OVERFLOW. -/
theorem rtuFromMbapNeverOverflows : Obligations.RtuFromMbapNeverOverflows := by
  intro s t h
  rcases exec_next_cases h with ⟨inp, hread, rfl⟩ | ⟨-, -, rfl⟩
  · show (rtuFromMbap (bufCap s) s.cfgMbapLenMax.toNat (wrnorm s) inp).status ≠ .overflow
    rcases mbapParse_status s.cfgMbapLenMax.toNat inp with hv | hv | hv
    · rw [rtuFromMbap_of_ok hv (hread rfl).length_le]
      exact Status.noConfusion
    all_goals
      rw [rtuFromMbap_of_not_ok (by simp [hv]), raisedWith_status, hv]
      exact Status.noConfusion
  · exact Status.noConfusion

/-! ## The function-code rows (R56, R73) -/

theorem responseClass_of_bit7 {v : Byte} (h : v.getLsbD 7 = true) : responseClass v = .other := by
  refine responseClass_of_not_mem fun hmem => ?_
  have hclear : ∀ c ∈ [0x01#8, 0x02#8, 0x03#8, 0x04#8, 0x05#8, 0x06#8, 0x0F#8, 0x10#8], c.getLsbD 7 = false := by
    decide
  exact Bool.false_ne_true ((hclear v hmem).symm.trans h)

/-- A row whose encoding is the byte `v` runs as RTU_DELIMIT with `v` in its `fc` operand. -/
theorem exec_of_encode_functionCode {i : Instr} {v : Byte} (h : encode i = .functionCode v) (s : State) :
    exec i s = exec (.rtuDelimit v) s := by
  cases i <;> cases h <;> rfl

/-- Settles O32: a row is decoded from its own encoding (O11); its class is the class of that code. -/
theorem functionCodeRowsRunTheirClass : Obligations.FunctionCodeRowsRunTheirClass := by
  refine ⟨fun v i s h => exec_of_encode_functionCode (encode_of_decodeFunctionCode h).2 s, ?verdicts,
    fun s inp h i _ => exec_completes_of_inputIs h i⟩
  case verdicts =>
    intro s inp h
    have hreads := delimitVerdict_of_ends (ends_runDelimit .readBc h)
    have hwrites := delimitVerdict_of_ends (ends_runDelimit .fixed8 h)
    refine ⟨?_, ?_, fun v h7 => delimitVerdict_rtuDelimit (fc := v) h (responseClass_of_bit7 h7)⟩
    · simp only [List.forall_mem_cons]
      exact ⟨hreads, hreads, hreads, hreads, fun _ hi => absurd hi List.not_mem_nil⟩
    · simp only [List.forall_mem_cons]
      exact ⟨hwrites, hwrites, hwrites, hwrites, fun _ hi => absurd hi List.not_mem_nil⟩

end Sys2Proof.Machine
end

section
/-! The host port (rule R31), the wait for the host (R117), and the pseudo-instructions LOAD, CONSUME and CRC_STREAM
(R53). -/

namespace Sys2Proof.Machine

/-! ## Waiting (R117) -/

theorem inputIs_powerOn (cap : Word) : InputIs (State.powerOn cap) [] := inputIs_nil rfl

/-- RTU_DELIMIT's verdict on the empty input: what the class waits for, nothing having come (R78). -/
theorem delimit_nil_status {cap : Nat} (h : 8 ≤ cap) (cls : ResponseClass) :
    (delimit cap cls []).status = if cls = .other then .lengthUnknown else .needMore := by
  cases cls with
  | readBc => rfl
  | fixed8 =>
    show (delimitAt cap 8 []).status = _
    rw [delimitAt, if_neg (by omega)]
    rfl
  | other => rfl

/-- Settles O5: the input after power-on is empty, and so readable by every command. -/
theorem blockWaitsForTheHost : Obligations.BlockWaitsForTheHost := by
  refine ⟨?wait, inputIs_powerOn, fun cap i _ => exec_completes_of_inputIs (inputIs_powerOn cap) i,
    fun cap => ends_rtuDecode (inputIs_powerOn cap), ?delimit⟩
  case wait =>
    intro s hq
    rw [step, hostStep, hq]
  case delimit =>
    intro cap fc hcap
    obtain ⟨t, ht, ⟨hst, -⟩, -⟩ := ends_runDelimit (responseClass fc) (inputIs_powerOn cap)
    exact ⟨t, ht, hst.trans (delimit_nil_status hcap _)⟩

/-! ## The host's writes and reads (R31, R32, R114) -/

theorem hostWriteIbuf_of_lt {i : Nat} {s : State} (h : i < bufCap s) (b : Byte) :
    hostWriteIbuf i b s = .next { s with ibuf := memWrite s.ibuf i b } := if_pos h

theorem hostWriteIbuf_of_ge {i : Nat} {s : State} (h : bufCap s ≤ i) (b : Byte) :
    hostWriteIbuf i b s = .refused .noSuchLocation := if_neg (Nat.not_lt.2 h)

theorem hostReadObuf_of_ge {i : Nat} {s : State} (h : bufCap s ≤ i) :
    hostReadObuf i s = .refused .noSuchLocation := if_neg (Nat.not_lt.2 h)

theorem hostReadObuf_of_byte {i : Nat} {s : State} {b : Byte} (h : i < bufCap s) (hb : obufByte i s = some b) :
    hostReadObuf i s = .next { s with readData := .byte b } := by
  rw [hostReadObuf, if_pos h, hb]

theorem hostReadObuf_of_none {i : Nat} {s : State} (h : i < bufCap s) (hb : obufByte i s = none) :
    hostReadObuf i s = .next { s with readData := .byte (Config.freeByte s.draws), draws := s.draws + 1 } := by
  rw [hostReadObuf, if_pos h, hb]

theorem zext_toNat (b : Byte) : (zext b).toNat = b.toNat :=
  BitVec.toNat_setWidth_of_le (by decide)

/-- Settles O6: the equation of each action, and for STATUS its code zero-extended. -/
theorem hostActionsDoWhatTheirRowSays : Obligations.HostActionsDoWhatTheirRowSays := by
  intro s
  refine ⟨?writeIbuf, fun i b h => hostWriteIbuf_of_ge h b, fun _ => rfl, ?readReg, ?notReadable,
    fun i h => hostReadObuf_of_ge h⟩
  case writeIbuf =>
    intro i b h
    exact ⟨_, hostWriteIbuf_of_lt h b, rfl, memRead_memWrite_same s.ibuf i b,
      fun a ha => memRead_memWrite_other s.ibuf i a b ha⟩
  case readReg =>
    simp only [List.forall_mem_cons]
    refine ⟨⟨_, rfl, ?_⟩, ⟨_, rfl, ?_⟩, ⟨_, rfl, ?_⟩, ⟨_, rfl, ?_⟩, ⟨_, rfl, ?_⟩, ⟨_, rfl, ?_⟩, ⟨_, rfl, ?_⟩,
      fun _ h => absurd h List.not_mem_nil⟩
    all_goals simp [zext_toNat]
  case notReadable =>
    simp only [List.forall_mem_cons]
    exact ⟨rfl, rfl, rfl, fun _ h => absurd h List.not_mem_nil⟩

theorem obufByte_of_lt {s : State} {out : List Byte} {i : Nat} (hout : outputBytes s = some out)
    (h : i < s.olen.toNat) : ∃ b, out[i]? = some b ∧ obufByte i s = some b := by
  obtain ⟨hlen, hbytes⟩ := (memReadRange_eq_some_iff s.obuf 0 out s.olen.toNat).1 hout
  have hi : i < out.length := by omega
  have hb := hbytes i hi
  rw [Nat.zero_add] at hb
  exact ⟨out[i], List.getElem?_eq_getElem hi, by rw [obufByte, if_pos h, hb]⟩

/-- Settles O7: below OLEN the invariant has the byte defined; past it there is none, and the read draws. -/
theorem hostReadObufIsTheOutputOrADraw : Obligations.HostReadObufIsTheOutputOrADraw := by
  intro s i hinv hcap
  refine ⟨fun hlt => ?_, fun hge => ?_⟩
  · obtain ⟨out, hout⟩ := Option.isSome_iff_exists.1 hinv.output_defined
    obtain ⟨b, hget, hb⟩ := obufByte_of_lt hout hlt
    exact ⟨out, b, hout, hget, hostReadObuf_of_byte hcap hb⟩
  · exact ⟨_, hostReadObuf_of_none hcap (if_neg (Nat.not_lt.2 hge))⟩

/-! ## LOAD and CONSUME (R53) -/

/-- The host's writes of `bs` from index `i` on, run to their end. -/
theorem run_writeActions {bs : List Byte} {i : Nat} (s : State) (rest : List HostAction)
    (h : i + bs.length ≤ bufCap s) :
    Host.Core.run Sys2Proof.core bs.length { s with hostQueue := writeActions i bs ++ rest } =
      .next { s with ibuf := memWriteRange s.ibuf i bs, hostQueue := rest } := by
  induction bs generalizing i s with
  | nil => rfl
  | cons b bs ih =>
    rw [List.length_cons] at h
    have hstep : step { s with hostQueue := writeActions i (b :: bs) ++ rest } =
        .next { s with ibuf := memWrite s.ibuf i b, hostQueue := writeActions (i + 1) bs ++ rest } :=
      hostWriteIbuf_of_lt (s := { s with hostQueue := writeActions (i + 1) bs ++ rest })
        (show i < bufCap s by omega) b
    rw [List.length_cons, run_succ_of_step _ _ _ hstep]
    exact ih { s with ibuf := memWrite s.ibuf i b } (show i + 1 + bs.length ≤ bufCap s by omega)

/-- `s` with the bytes `bs` loaded as its input. -/
def withLoaded (s : State) (bs : List Byte) : State :=
  { s with ibuf := memWriteRange s.ibuf 0 bs, ilen := word bs.length }

theorem inputIs_withLoaded {s : State} {bs : List Byte} (h : bs.length ≤ bufCap s) : InputIs (withLoaded s bs) bs := by
  have hlen : (withLoaded s bs).ilen.toNat = bs.length := word_toNat (Nat.lt_of_le_of_lt h (bufCap_lt s))
  refine ⟨hlen.trans_le h, ?_⟩
  rw [inputBytes, hlen]
  exact memReadRange_memWriteRange s.ibuf 0 bs

/-- LOAD, run to its end: the bytes are written, then ILEN. -/
theorem run_loadActions {s : State} {bs : List Byte} (rest : List HostAction) (h : bs.length ≤ bufCap s) :
    Host.Core.run Sys2Proof.core (bs.length + 1) { s with hostQueue := loadActions bs ++ rest } =
      .next { withLoaded s bs with hostQueue := rest } := by
  have hwrites := run_writeActions (bs := bs) (i := 0) s (.writeIlen (word bs.length) :: rest) (by omega)
  rw [loadActions, List.append_assoc, List.singleton_append, run_add_of_run _ _ _ _ hwrites]
  rfl

/-- Settles O8: LOAD by `run_loadActions`; CONSUME is the LOAD of the bytes that are left. -/
theorem loadAndConsumeSetTheInput : Obligations.LoadAndConsumeSetTheInput := by
  refine ⟨?load, ?consume⟩
  case load =>
    intro s bs rest h
    exact ⟨_, run_loadActions rest h, inputIs_withLoaded h, rfl,
      fun a ha => memRead_memWriteRange_outside s.ibuf 0 a bs (.inr (by omega))⟩
  case consume =>
    intro s old k hold
    have hfits : (old.drop k).length ≤ bufCap s := by
      have := hold.length_le
      rw [List.length_drop]
      omega
    have hrun := run_loadActions [] hfits
    rw [List.append_nil, List.length_drop] at hrun
    exact ⟨_, hrun, inputIs_withLoaded hfits, rfl⟩

/-! ## CRC_STREAM (R53) -/

/-- Issuing the encoding of an instruction runs it. -/
theorem step_issue_encoding {i : Instr} {w : CommandWord} {s : State} {rest : List HostAction}
    (hwf : i.wellFormed = true) (hw : encode i = .command w) :
    step { s with hostQueue := .issue w :: rest } = exec i { s with hostQueue := rest } := by
  have hd := decodeOfEncodeIsTheInstruction i hwf
  rw [hw] at hd
  exact hostIssue_of_decode hd _

/-- The CRC_BYTEs of a stream, run to their end, take the CRC on over its bytes. -/
theorem run_crcBytes (bs : List Byte) (s : State) :
    ∃ t, Host.Core.run Sys2Proof.core bs.length
      { s with hostQueue := bs.map fun b => .issue (commandWord 0x02#8 b 0#8 0#8 0#16 0#16) } = .next t ∧
      t.crc = crcOver s.crc bs := by
  induction bs generalizing s with
  | nil => exact ⟨_, rfl, rfl⟩
  | cons b bs ih =>
    obtain ⟨t, ht, hcrc⟩ := ih (finish ⟨.ok, crcStep s.crc b, 0#16, 0#16, []⟩ (setCrc (crcStep s.crc b) s))
    refine ⟨t, ?_, hcrc⟩
    rw [List.map_cons, List.length_cons, run_succ_of_step _ _ _ (step_issue_encoding (i := .crcByte b) rfl rfl)]
    exact ht

/-- CRC_STREAM, run to its end, leaves the CRC-16 of its bytes. -/
theorem run_crcStreamActions (bs : List Byte) (s : State) :
    ∃ t, Host.Core.run Sys2Proof.core (bs.length + 1) { s with hostQueue := crcStreamActions bs } = .next t ∧
      t.crc = crc16Of bs := by
  obtain ⟨t, ht, hcrc⟩ := run_crcBytes bs (finish ⟨.ok, crcInitial, 0#16, 0#16, []⟩ (setCrc crcInitial s))
  refine ⟨t, ?_, hcrc⟩
  rw [crcStreamActions, run_succ_of_step _ _ _ (step_issue_encoding (i := .crcInit) rfl rfl)]
  exact ht

/-- LOAD and CRC16, run to their end, leave the CRC-16 of the bytes. -/
theorem run_loadThenCrc16 {s : State} {bs : List Byte} (h : bs.length ≤ bufCap s) :
    ∃ u, Host.Core.run Sys2Proof.core (bs.length + 2)
      { s with hostQueue := loadActions bs ++ [.issue 0x0000000000000005#64] } = .next u ∧ u.crc = crc16Of bs := by
  have hload := run_loadActions [.issue 0x0000000000000005#64] h
  have hcrc16 := (step_issue_encoding (i := .crc16) (s := withLoaded s bs) (rest := []) rfl rfl).trans
    (exec_crc16_of_inputIs (inputIs_withLoaded h))
  have hrun := (run_add_of_run _ 1 _ _ hload).trans (run_succ_of_step 0 _ _ hcrc16)
  exact ⟨_, hrun, rfl⟩

/-- Settles O9: each of the two ways leaves the CRC-16 of the bytes. -/
theorem crcStreamEqualsLoadThenCrc16 : Obligations.CrcStreamEqualsLoadThenCrc16 := by
  intro s bs h
  obtain ⟨t, ht, htcrc⟩ := run_crcStreamActions bs s
  obtain ⟨u, hu, hucrc⟩ := run_loadThenCrc16 h
  exact ⟨t, u, ht, hu, htcrc.trans hucrc.symm, hucrc⟩

end Sys2Proof.Machine
end

section
/-! The trailer and the residue of a frame (rule R66). -/

namespace Sys2Proof.Machine

/-- A frame with the residue 0 ends in the CRC of its body: taking a register on is one-to-one, and the body's own CRC
would leave 0 too. -/
theorem crcOk_of_residue {s : List Byte} (h3 : 3 ≤ s.length) (h : crc16Of s = 0#16) : crcOk s = true := by
  refine crcOk_iff.2 ⟨h3, ?_⟩
  have hsplit : crcOver (crc16Of (frameBody s)) (le (frameTrailer s)) = 0#16 := by
    rw [← h, crc16Of, ← crcOver_append, frameBody_append_le_frameTrailer (by omega)]
    rfl
  exact crcOver_injective_register (le (frameTrailer s)) (hsplit.trans (crcOver_le _).symm)

/-- Settles O23: the definition of `crcOk`, and its residue one way and the other. -/
theorem crcOkIsAZeroResidue : Obligations.CrcOkIsAZeroResidue := by
  intro s h3
  refine ⟨?_, crc16Of_of_crcOk, crcOk_of_residue h3⟩
  rw [crcOk_iff]
  exact and_iff_right h3

end Sys2Proof.Machine
end

section
/-! The assembler (rule R52): every statement assembles to its command's encoding. -/

namespace Sys2Proof.Machine

/-! ## The operands of a statement -/

/-- No operand of the statement has the name `n`. -/
def Lacks (n : String) (given : List (String × AsmValue)) : Prop := ∀ p ∈ given, p.1 ≠ n

@[simp] theorem lacks_asmOperand {w : Nat} {m n : String} (h : m ≠ n) (v : Option (BitVec w)) :
    Lacks n (asmOperand m v) :=
  fun _ hp => name_of_mem_asmOperand hp ▸ h

@[simp] theorem lacks_append {n : String} {given rest : List (String × AsmValue)} :
    Lacks n (given ++ rest) ↔ Lacks n given ∧ Lacks n rest := List.forall_mem_append

@[simp] theorem lacks_cons {n m : String} {v : AsmValue} {rest : List (String × AsmValue)} :
    Lacks n ((m, v) :: rest) ↔ m ≠ n ∧ Lacks n rest := List.forall_mem_cons

/-- A number operand before the rest of the statement. -/
theorem asmOperands_number {w low : Nat} {n : String} {rows : List AsmOperand} {rest : List (String × AsmValue)}
    (v : Option (BitVec w)) (h : Lacks n rest) :
    asmOperands ((n, low, w) :: rows) (asmOperand n v ++ rest) =
      (asmOperands rows rest).map fun y => (v.getD 0#w).setWidth 64 <<< low ||| y :=
  asmOperands_operand v h

/-- An operand given by a name that stands for the byte `x`. -/
theorem asmOperands_named {low : Nat} {n : String} {rows : List AsmOperand} {rest : List (String × AsmValue)}
    {v : AsmValue} {x : Byte} (h : asmValue n v = some x.toNat) :
    asmOperands ((n, low, 8) :: rows) ((n, v) :: rest) =
      (asmOperands rows rest).map fun y => x.setWidth 64 <<< low ||| y := by
  rw [asmOperands_given h x.isLt, BitVec.ofNat_toNat]

/-- The operand fields of a command word, each in its place (rule R46). -/
def operandBits (a b c : Byte) (d e : Word) : CommandWord :=
  a.setWidth 64 <<< 8 ||| (b.setWidth 64 <<< 16 ||| (c.setWidth 64 <<< 24 ||| (d.setWidth 64 <<< 32 |||
    e.setWidth 64 <<< 48)))

/-- A statement assembles to the command word of its opcode and its operand fields. -/
theorem assemble_of_operandBits {m : String} {o : Opcode} {rows : List AsmOperand} {given : List (String × AsmValue)}
    {a b c : Byte} {d e : Word} (hrow : asmRow m = some (o, rows))
    (hbits : asmOperands rows given = some (operandBits a b c d e)) :
    (assemble m given).map Encoded.command = some (.command (commandWord (opcodeByte o) a b c d e)) := by
  rw [assemble_eq hrow hbits, commandWord_eq_or]
  rfl

/-! ## Statements with numbers -/

section
variable (a b c k : Option Byte) (d e : Option Word)

theorem assemble_crcByte :
    (assemble "CRC_BYTE" (asmOperand "byte" a)).map Encoded.command =
      some (encode (.crcByte (a.getD 0#8))) :=
  assemble_of_operandBits (o := .crcByte) rfl (by simp [asmOperands_last, operandBits])

theorem assemble_crcLoad :
    (assemble "CRC_LOAD" (asmOperand "value" d)).map Encoded.command =
      some (encode (.crcLoad (d.getD 0#16))) :=
  assemble_of_operandBits (o := .crcLoad) rfl (by simp [asmOperands_last, operandBits])

theorem assemble_rtuEncode :
    (assemble "RTU_ENCODE" (asmOperand "slave" a)).map Encoded.command =
      some (encode (.rtuEncode (a.getD 0#8))) :=
  assemble_of_operandBits (o := .rtuEncode) rfl (by simp [asmOperands_last, operandBits])

theorem assemble_rtuDelimit :
    (assemble "RTU_DELIMIT" (asmOperand "fc" b)).map Encoded.command =
      some (encode (.rtuDelimit (b.getD 0#8))) :=
  assemble_of_operandBits (o := .rtuDelimit) rfl (by simp [asmOperands_last, operandBits])

theorem assemble_wrRegFrame :
    (assemble "WR_REG_FRAME" (asmOperand "slave" a ++ asmOperand "addr" d ++ asmOperand "value" e)).map Encoded.command =
      some (encode (.wrRegFrame (a.getD 0#8) (d.getD 0#16) (e.getD 0#16))) :=
  assemble_of_operandBits (o := .wrRegFrame) rfl (by simp [asmOperands_number, asmOperands_last, operandBits])

theorem assemble_mbapBuild :
    (assemble "MBAP_BUILD" (asmOperand "unit" a ++ asmOperand "tid" d)).map Encoded.command =
      some (encode (.mbapBuild (a.getD 0#8) (d.getD 0#16))) :=
  assemble_of_operandBits (o := .mbapBuild) rfl (by simp [asmOperands_number, asmOperands_last, operandBits])

theorem assemble_mbapException :
    (assemble "MBAP_EXCEPTION" (asmOperand "unit" a ++ asmOperand "fc" b ++ asmOperand "kind" c ++ asmOperand "tid" d ++
      asmOperand "code" k)).map Encoded.command =
      some (encode (.mbapException (a.getD 0#8) (b.getD 0#8) (c.getD 0#8) (d.getD 0#16) ((k.getD 0#8).setWidth 16))) :=
  assemble_of_operandBits (o := .mbapException) rfl (by simp [asmOperands_number, asmOperands_last, operandBits])

theorem assemble_mbapFromRtu :
    (assemble "MBAP_FROM_RTU" (asmOperand "unit" a ++ asmOperand "fc" b ++ asmOperand "tid" d)).map Encoded.command =
      some (encode (.mbapFromRtu (a.getD 0#8) (b.getD 0#8) (d.getD 0#16))) :=
  assemble_of_operandBits (o := .mbapFromRtu) rfl (by simp [asmOperands_number, asmOperands_last, operandBits])

theorem assemble_setCfg :
    (assemble "SET_CFG" (asmOperand "idx" a ++ asmOperand "value" d)).map Encoded.command =
      some (encode (.setCfg (a.getD 0#8) (d.getD 0#16))) :=
  assemble_of_operandBits (o := .setCfg) rfl (by simp [asmOperands_number, asmOperands_last, operandBits])

theorem assemble_getCfg :
    (assemble "GET_CFG" (asmOperand "idx" a)).map Encoded.command =
      some (encode (.getCfg (a.getD 0#8))) :=
  assemble_of_operandBits (o := .getCfg) rfl (by simp [asmOperands_last, operandBits])

/-! ## Statements with names (R84, R100) -/

theorem assemble_mbapException_named {name : String} {kind : Byte} (h : asmKind name = some kind.toNat) :
    (assemble "MBAP_EXCEPTION" (asmOperand "unit" a ++ asmOperand "fc" b ++ [("kind", .name name)] ++ asmOperand "tid" d ++
      asmOperand "code" k)).map Encoded.command =
      some (encode (.mbapException (a.getD 0#8) (b.getD 0#8) kind (d.getD 0#16) ((k.getD 0#8).setWidth 16))) := by
  have hv : asmValue "kind" (.name name) = some kind.toNat := h
  exact assemble_of_operandBits (o := .mbapException) rfl
    (by simp [asmOperands_named hv, asmOperands_number, asmOperands_last, operandBits])

theorem assemble_setCfg_named {name : String} {idx : Byte} (h : asmIndex name = some idx.toNat) :
    (assemble "SET_CFG" (("idx", .name name) :: asmOperand "value" d)).map Encoded.command =
      some (encode (.setCfg idx (d.getD 0#16))) := by
  have hv : asmValue "idx" (.name name) = some idx.toNat := h
  exact assemble_of_operandBits (o := .setCfg) rfl (by simp [asmOperands_named hv, asmOperands_last, operandBits])

end

theorem assemble_getCfg_named {name : String} {idx : Byte} (h : asmIndex name = some idx.toNat) :
    (assemble "GET_CFG" [("idx", .name name)]).map Encoded.command = some (encode (.getCfg idx)) := by
  have hv : asmValue "idx" (.name name) = some idx.toNat := h
  exact assemble_of_operandBits (o := .getCfg) rfl (by simp [asmOperands_named hv, operandBits])

/-- Settles O16: each mnemonic's operands are put in their places, and the command word is its fields put in theirs. -/
theorem assembledStatementsAreEncodings : Obligations.AssembledStatementsAreEncodings := by
  refine ⟨by decide, ?numbers, ?kinds, ?indices⟩
  case numbers =>
    intro a b c k d e
    exact ⟨assemble_crcByte a, assemble_crcLoad d, assemble_rtuEncode a, assemble_rtuDelimit b,
      assemble_wrRegFrame a d e, assemble_mbapBuild a d, assemble_mbapException a b c k d,
      assemble_mbapFromRtu a b d, assemble_setCfg a d, assemble_getCfg a⟩
  case kinds =>
    intro x hx a b k d
    have hkind : ∀ x ∈ [("TIMEOUT", 0x01#8), ("CRC_MISMATCH", 0x02#8), ("BUS_BUSY", 0x03#8),
        ("MODBUS_EXCEPTION", 0x04#8), ("MALFORMED_FRAME", 0x05#8), ("TRANSPORT_ERROR", 0x06#8)],
        asmKind x.1 = some x.2.toNat := by decide
    exact assemble_mbapException_named a b k d (hkind x hx)
  case indices =>
    intro x hx
    have hindex : ∀ x ∈ [("CTRL", 0x00#8), ("MBAP_LEN_MAX", 0x01#8), ("BUF_CAP", 0x02#8)],
        asmIndex x.1 = some x.2.toNat := by decide
    exact ⟨fun d => assemble_setCfg_named d (hindex x hx), assemble_getCfg_named (hindex x hx)⟩

end Sys2Proof.Machine
end
